-- ==== Sys2Proof/Word.lean ====
section
/-! DEFINITION. The Word of the Intcode core (00_scope.md R5, R8): XLEN = 64 bits, two's complement. -/

namespace Sys2Proof

/-- R5, decision D1 of the spec: the width of a cell, of `pc`, of `rb` and of every queued value. -/
abbrev xlen : Nat := 64

/-- R8: a Word is an integer from -2^63 to 2^63 - 1, held in two's complement.
Its signed value is `BitVec.toInt`. -/
abbrev Word := BitVec 64

end Sys2Proof
end

