-- ==== Sys2Proof/Config.lean ====
section
/-! DEFINITION. What the host fixes when it creates or configures a core (00_scope.md R6, R7; 10_state.md R27),
and the free value the environment supplies (93_implementation_defined.md U14). -/

namespace Sys2Proof

/-- R27: which lines the trace port emits. -/
inductive Verbosity where
  /-- 0: nothing. -/
  | silent
  /-- 1: one line per fault. -/
  | errorsOnly
  /-- 2: in addition one line per executed instruction. -/
  | everyInstruction
  deriving DecidableEq, Repr

/-- The configuration of one core. No instruction, no `reset()` and no `load()` changes it (R27, R141). -/
structure Config where
  /-- MEM_CELLS, the open parameter of R6: how many cells the memory array has. -/
  memCells : Nat
  /-- HAS_PRODUCER (R27): a fallback input-producer is attached. -/
  hasProducer : Bool
  /-- HAS_CONSUMER (R27): a fallback output-consumer is attached. -/
  hasConsumer : Bool
  /-- VERBOSITY (R27). -/
  verbosity : Verbosity
  /-- DESIGN CHOICE (log 5): names the producer function the host attached, so that two functions
  draw from unrelated free values. -/
  producerId : Nat
  deriving DecidableEq, Repr

/-- R6: `1 <= MEM_CELLS <= 2^(XLEN-1) - 1`. -/
def Config.wf (c : Config) : Bool :=
  decide (1 ≤ c.memCells) && decide (c.memCells ≤ 2 ^ (xlen - 1) - 1)

/-- The configuration of `State.reset`. R30 gives false for both attachments.
DESIGN CHOICE (log 2): 4096 cells, the number 95_test_vectors.md uses for the open parameter.
DESIGN CHOICE (log 3): silent. DESIGN CHOICE (log 5): producer 0. -/
def Config.initial : Config where
  memCells := 4096
  hasProducer := false
  hasConsumer := false
  verbosity := .silent
  producerId := 0

/-- FREE VALUE (log 4): the Word the producer function `id` returns on its `n`-th call.
R91: the environment chooses it and the document gives no law for it. -/
opaque Config.producerWord (id n : Nat) : Word

end Sys2Proof
end

