-- ==== Sys2Proof/Syntax.lean ====
section
/-! DEFINITION. The decoded instruction: one constructor per row of spec/opcode_table.json (30_encoding.md R54),
each with the modes of its own parameters (R53). The operands are not part of it: they are cells of memory
that the handler fetches one by one (40_execution_cycle.md R67). -/

namespace Sys2Proof

/-- R50: the addressing mode a mode digit names. -/
inductive Mode where
  /-- digit 0 -/
  | position
  /-- digit 1 -/
  | immediate
  /-- digit 2 -/
  | relative
  /-- digits 3 to 9: no mode; resolving the parameter raises AddressFault (R59) -/
  | reserved (digit : Nat)
  deriving DecidableEq, Repr

/-- The ten instructions (R54). Parameter 0 comes first. -/
inductive Instr where
  /-- opcode 1, sources `m0` and `m1`, destination `m2` -/
  | add (m0 m1 m2 : Mode)
  /-- opcode 2, sources `m0` and `m1`, destination `m2` -/
  | mul (m0 m1 m2 : Mode)
  /-- opcode 3, destination `m0` -/
  | input (m0 : Mode)
  /-- opcode 4, source `m0` -/
  | output (m0 : Mode)
  /-- opcode 5, condition `m0`, target `m1` -/
  | jumpIfTrue (m0 m1 : Mode)
  /-- opcode 6, condition `m0`, target `m1` -/
  | jumpIfFalse (m0 m1 : Mode)
  /-- opcode 7, sources `m0` and `m1`, destination `m2` -/
  | lessThan (m0 m1 m2 : Mode)
  /-- opcode 8, sources `m0` and `m1`, destination `m2` -/
  | equals (m0 m1 m2 : Mode)
  /-- opcode 9, source `m0` -/
  | adjustRelativeBase (m0 : Mode)
  /-- opcode 99 -/
  | halt
  deriving DecidableEq, Repr

end Sys2Proof
end

