-- ==== Sys2Proof/Machine/State.lean ====
section
/-! DEFINITION. The state of one Intcode core (10_state.md R13: "exactly the following state and no other"), its
value after reset, and the two reason types of the host's interface. -/

namespace Sys2Proof.Machine

/-- R22: the execution state. The result of `step()` is the STATUS it leaves (40_execution_cycle.md R76). -/
inductive Status where
  | running
  | awaitingInput
  | halted
  deriving DecidableEq, Repr

/-- R24: why the core is halted. -/
inductive FCause where
  | none
  | addressFault
  | unknownOpcode
  deriving DecidableEq, Repr

/-- R12, R122: the `info` of `raise`; no register records it, only a trace line does. R122 leaves its form open: that it is
one of these three, and holds nothing else of the faulting instruction, is the model's choice (log 7, DESIGN CHOICE). -/
inductive FaultInfo where
  /-- an address outside memory -/
  | address (a : Word)
  /-- a mode that is illegal for the parameter -/
  | mode (m : Mode)
  /-- an instruction word that is no instruction -/
  | word (w : Word)
  deriving DecidableEq, Repr

/-- 60_exceptions.md R147: a line of the trace port. The spec fixes which events are logged and no format, so the
model records the events (log 7, DESIGN CHOICE). -/
inductive TraceEvent where
  /-- one line per fault, at VERBOSITY 1 and 2: its cause and `raise`'s `info` (log 7, DESIGN CHOICE) -/
  | fault (cause : FCause) (info : FaultInfo)
  /-- one line per executed instruction, at VERBOSITY 2: its address and decoded operands -/
  | executed (address : Word) (instr : Instr) (operands : List Word)
  deriving DecidableEq, Repr

/-- R16: the memory array, as (address, contents) pairs. The canonical form (`Memory.wf`) has rising addresses and no
zero contents: an address that is not listed holds 0, what R30 gives every cell at reset. A cell is one whole Word
and has no bytes (20_memory.md R33; log 9). -/
abbrev Memory := List (Nat × Word)

/-- The state of one core. -/
structure State where
  /-- M, the memory array and register file (R15, R16) -/
  mem : Memory
  /-- the instruction pointer (R18) -/
  pc : Word
  /-- the relative base (R20) -/
  rb : Word
  /-- STATUS (R22) -/
  status : Status
  /-- FCAUSE (R24) -/
  fcause : FCause
  /-- INQ (R25), head first -/
  inq : List Word
  /-- OUTQ (R26), head first -/
  outq : List Word
  /-- HAS_PRODUCER, HAS_CONSUMER, VERBOSITY (R27) and MEM_CELLS (00_scope.md R6) -/
  config : Config
  /-- the model's own (log 4): how many Producer() calls were made, the index of the next free value -/
  producerCalls : Nat
  /-- the model's own (log 6): the Words handed to Consumer, oldest first (42_io.md R94, R95) -/
  delivered : List Word
  /-- the model's own (log 7): the lines the trace port emitted, oldest first (60_exceptions.md R147) -/
  trace : List TraceEvent
  deriving DecidableEq, Repr

/-- R30, R141, 70_reset_and_hazards.md R151: a new core with a given configuration. -/
def State.create (c : Config) : State where
  mem := []
  pc := 0
  rb := 0
  status := .running
  fcause := .none
  inq := []
  outq := []
  config := c
  producerCalls := 0
  delivered := []
  trace := []

/-- The machine right after reset (R30), with the configuration of `Config.initial`. -/
def State.reset : State := State.create Config.initial

/-- Why the machine would stop with a fault: never. Every fault the spec names is taken as R121 describes, in a NEXT
state with FCAUSE and STATUS written (log 8), so this type has no constructor. Nothing raises it; that is safe. -/
inductive Fault where
  deriving DecidableEq, Repr

/-- Why the machine would refuse an instruction. -/
inductive Refusal where
  /-- The instruction of that mnemonic has no meaning yet. Raised by no arm of `exec`: every instruction has its
  meaning. A refusal is safe. -/
  | notModelled (mnemonic : String)
  deriving DecidableEq, Repr

end Sys2Proof.Machine
end

