-- ==== Sys2Proof/Machine/Ops.lean ====
section
/-! DEFINITION. The named operations over memory and registers: `wrap`, the memory array, the register writes, the
bounds check, `raise` (taking a fault), `Fetch`, and the end of a handler. -/

namespace Sys2Proof.Machine

/-- 00_scope.md R9: the Word congruent to `z` modulo `2^XLEN`. -/
def wrap (z : Int) : Word := BitVec.ofInt 64 z

/-! ### The memory array -/

/-- Contents of cell `a`; an unlisted cell holds 0 (10_state.md R30). -/
def Memory.read (a : Nat) : Memory → Word
  | [] => 0
  | (b, w) :: m => if a = b then w else Memory.read a m

/-- Unlist cell `a`. -/
def Memory.erase (a : Nat) : Memory → Memory
  | [] => []
  | (b, w) :: m => if a = b then Memory.erase a m else (b, w) :: Memory.erase a m

/-- List cell `a` at its place among rising addresses. -/
def Memory.insert (a : Nat) (v : Word) : Memory → Memory
  | [] => [(a, v)]
  | (b, w) :: m => if a < b then (a, v) :: (b, w) :: m else (b, w) :: Memory.insert a v m

/-- Write cell `a`, keeping the canonical form: a cell that holds 0 is not listed. -/
def Memory.write (a : Nat) (v : Word) (m : Memory) : Memory :=
  if v = 0 then Memory.erase a m else Memory.insert a v (Memory.erase a m)

/-- Write consecutive cells from `a` on. -/
def Memory.writeAll (a : Nat) : List Word → Memory → Memory
  | [], m => m
  | v :: vs, m => Memory.writeAll (a + 1) vs (Memory.write a v m)

/-- The canonical form: every listed address is above the one before it, and no listed cell holds 0. -/
def Memory.wf : Memory → Bool
  | [] => true
  | [(_, w)] => decide (w ≠ 0)
  | (a, w) :: (b, x) :: m => decide (w ≠ 0) && decide (a < b) && Memory.wf ((b, x) :: m)

/-! ### Register writes -/

def State.setMem (m : Memory) (s : State) : State := { s with mem := m }
def State.setPc (p : Word) (s : State) : State := { s with pc := p }
def State.setRb (r : Word) (s : State) : State := { s with rb := r }
def State.setStatus (x : Status) (s : State) : State := { s with status := x }
def State.setFcause (c : FCause) (s : State) : State := { s with fcause := c }
def State.setInq (q : List Word) (s : State) : State := { s with inq := q }
def State.setOutq (q : List Word) (s : State) : State := { s with outq := q }
def State.setConfig (c : Config) (s : State) : State := { s with config := c }
def State.setProducerCalls (n : Nat) (s : State) : State := { s with producerCalls := n }
def State.setDelivered (q : List Word) (s : State) : State := { s with delivered := q }
def State.setTrace (t : List TraceEvent) (s : State) : State := { s with trace := t }

/-- Write one cell of the core's memory. -/
def State.writeCell (a : Nat) (v : Word) (s : State) : State := s.setMem (Memory.write a v s.mem)

/-! ### The bounds check -/

/-- 20_memory.md R32: `0 <= a < MEM_CELLS`, compared as a signed Word. -/
def validAddr (s : State) (a : Word) : Bool :=
  decide (0 ≤ a.toInt) && decide (a.toInt < (s.config.memCells : Int))

/-- The cell an address names, or what AddressFault reports. -/
def checkAddr (s : State) (a : Word) : Except FaultInfo Nat :=
  if validAddr s a then .ok a.toNat else .error (.address a)

/-- 00_scope.md R12: `MemRead(a, 1)`. -/
def memRead (s : State) (a : Word) : Except FaultInfo Word :=
  match checkAddr s a with
  | .ok n => .ok (Memory.read n s.mem)
  | .error e => .error e

/-! ### Taking a fault -/

/-- 60_exceptions.md R123: the number of a fault cause. -/
def FCause.code : FCause → Nat
  | .none => 0
  | .addressFault => 1
  | .unknownOpcode => 2

/-- R147: the trace line of a fault, emitted at VERBOSITY 1 and 2. DESIGN CHOICE (log 7): R122 names the faulting address,
the instruction word and the faulting instruction's address, in a form the document does not define; this line holds the
cause and `raise`'s `info`, so one datum: the faulting address or the illegal mode for AddressFault, the word for
UnknownOpcode, and never the faulting instruction's address. -/
def faultLine (c : FCause) (info : FaultInfo) (s : State) : List TraceEvent :=
  match s.config.verbosity with
  | .silent => []
  | .errorsOnly => [.fault c info]
  | .everyInstruction => [.fault c info]

/-- 60_exceptions.md R121: `raise F(info)`. FCAUSE and STATUS are written, nothing is saved and control goes nowhere;
the trace port emits the fault's line. -/
def raise (c : FCause) (info : FaultInfo) (s : State) : State :=
  ((s.setFcause c).setStatus .halted).setTrace (s.trace ++ faultLine c info s)

/-! ### Sub-operations -/

/-- What a sub-operation of an instruction gives (00_scope.md R10): a value and the state it left, or the state after
the fault it raised, which ends the instruction. -/
inductive Sub (α : Type) where
  | ok (value : α) (s : State)
  | raised (s : State)

/-- The next sub-operation sees the state the previous one left; after a fault it is not performed (R10). -/
def Sub.bind {α β : Type} (r : Sub α) (f : α → State → Sub β) : Sub β :=
  match r with
  | .ok a s => f a s
  | .raised s => .raised s

/-- 40_execution_cycle.md R64: `Fetch()`. The bounds check comes before the advance. -/
def fetch (s : State) : Sub Word :=
  match memRead s s.pc with
  | .ok v => .ok v (s.setPc (s.pc + 1))
  | .error e => .raised (raise .addressFault e s)

/-- R73: the end of a handler that neither raised nor returned on its own; a raised fault is a next state as well
(R121). -/
def finish (r : Sub Unit) : Host.Outcome State Fault Refusal :=
  match r with
  | .ok _ s => .next (s.setStatus .running)
  | .raised s => .next s

/-! ### Reset -/

/-- 70_reset_and_hazards.md R152: `reset()`. The configuration stays. The model's own records of what the environment
supplied and received stay too (logs 4, 6, 7). -/
def State.resetCore (s : State) : State :=
  { s with mem := [], pc := 0, rb := 0, inq := [], outq := [], status := .running, fcause := .none }

end Sys2Proof.Machine
end

