-- ==== Sys2Proof/Machine/Operands.lean ====
section
/-! DEFINITION. The operand forms (40_execution_cycle.md R67 to R71): how a source parameter yields a Word and a
destination parameter names a cell, under each addressing mode. -/

namespace Sys2Proof.Machine

/-- R71: the effective address of a Relative-mode parameter, `wrap(rb + a)`. -/
def relativeAddress (s : State) (a : Word) : Word := wrap (s.rb.toInt + a.toInt)

/-- R68: the Word a source parameter with operand `a` yields, or what AddressFault reports. -/
def sourceValue (s : State) (m : Mode) (a : Word) : Except FaultInfo Word :=
  match m with
  | .position => memRead s a
  | .immediate => .ok a
  | .relative => memRead s (relativeAddress s a)
  | .reserved d => .error (.mode (.reserved d))

/-- R69: the cell a destination parameter with operand `a` names, or what AddressFault reports. The mode is tested
before the address. -/
def destination (s : State) (m : Mode) (a : Word) : Except FaultInfo Nat :=
  match m with
  | .position => checkAddr s a
  | .immediate => .error (.mode .immediate)
  | .relative => checkAddr s (relativeAddress s a)
  | .reserved d => .error (.mode (.reserved d))

/-- R68: `ReadParam(m)`. -/
def readParam (m : Mode) (s : State) : Sub Word :=
  (fetch s).bind fun a s1 =>
    match sourceValue s1 m a with
    | .ok v => .ok v s1
    | .error e => .raised (raise .addressFault e s1)

/-- R69: `StoreOperand(a, m, v)`. -/
def storeOperand (a : Word) (m : Mode) (v : Word) (s : State) : Sub Unit :=
  match destination s m a with
  | .ok d => .ok () (s.writeCell d v)
  | .error e => .raised (raise .addressFault e s)

/-- R70: `WriteParam(v, m)`. -/
def writeParam (v : Word) (m : Mode) (s : State) : Sub Unit :=
  (fetch s).bind fun a s1 => storeOperand a m v s1

/-- Format RRW (30_encoding.md R53): both sources are fully read before the destination operand is fetched, and the
write comes last (R67). `f` computes the stored Word. -/
def storeResult (f : Word → Word → Word) (m0 m1 m2 : Mode) (s : State) : Sub Unit :=
  (readParam m0 s).bind fun a s1 =>
    (readParam m1 s1).bind fun b s2 =>
      writeParam (f a b) m2 s2

/-- Format RR (43_jumps.md R99): both parameters are resolved whether or not the jump is taken, and the target is copied
into `pc` without any check. `taken` tells from the condition value whether to jump. -/
def jumpWhen (taken : Word → Bool) (m0 m1 : Mode) (s : State) : Sub Unit :=
  (readParam m0 s).bind fun a s1 =>
    (readParam m1 s1).bind fun b s2 =>
      .ok () (if taken a then s2.setPc b else s2)

end Sys2Proof.Machine
end

