-- ==== Sys2Proof/Machine/Arithmetic.lean ====
section
/-! DEFINITION. ADD and MUL (41_arithmetic.md): two sources, one destination, the exact result reduced by `wrap`. -/

namespace Sys2Proof.Machine

/-- R82: ADD. -/
def execAdd (m0 m1 m2 : Mode) (s : State) : Host.Outcome State Fault Refusal :=
  finish (storeResult (fun a b => wrap (a.toInt + b.toInt)) m0 m1 m2 s)

/-- R83: MUL. -/
def execMul (m0 m1 m2 : Mode) (s : State) : Host.Outcome State Fault Refusal :=
  finish (storeResult (fun a b => wrap (a.toInt * b.toInt)) m0 m1 m2 s)

end Sys2Proof.Machine
end

