-- ==== Sys2Proof/Machine/Flags.lean ====
section
/-! DEFINITION. The machine has no flags and no condition codes (10_state.md R28): a comparison stores the Word 1 or 0
in a cell (44_compare.md R105), and a jump tests a parameter value against 0 (43_jumps.md R102). These are the
computations behind both. -/

namespace Sys2Proof.Machine

/-- R105: the Word 1 when the relation holds, the Word 0 when it does not. -/
def truthWord (b : Bool) : Word := if b then 1 else 0

/-- R106: the signed order on two Words. -/
def lessThanWord (a b : Word) : Bool := decide (a.toInt < b.toInt)

/-- R107: all bits equal. -/
def equalWord (a b : Word) : Bool := decide (a = b)

/-- R100, R102: a condition is true when it is not the Word 0. -/
def nonzeroWord (a : Word) : Bool := decide (a ≠ 0)

end Sys2Proof.Machine
end

