-- ==== Sys2Proof/Machine/Compare.lean ====
section
/-! DEFINITION. LESS-THAN and EQUALS (44_compare.md): two sources, one destination, the result 0 or 1. -/

namespace Sys2Proof.Machine

/-- R106: LESS-THAN. -/
def execLessThan (m0 m1 m2 : Mode) (s : State) : Host.Outcome State Fault Refusal :=
  finish (storeResult (fun a b => truthWord (lessThanWord a b)) m0 m1 m2 s)

/-- R107: EQUALS. -/
def execEquals (m0 m1 m2 : Mode) (s : State) : Host.Outcome State Fault Refusal :=
  finish (storeResult (fun a b => truthWord (equalWord a b)) m0 m1 m2 s)

end Sys2Proof.Machine
end

