-- ==== Sys2Proof/Machine/Halt.lean ====
section
/-! DEFINITION. HALT (46_halt.md). -/

namespace Sys2Proof.Machine

/-- R114: HALT. STATUS becomes Halted and FCAUSE stays as it is. -/
def execHalt (s : State) : Host.Outcome State Fault Refusal := .next (s.setStatus .halted)

end Sys2Proof.Machine
end

