-- ==== Sys2Proof/Machine/Io.lean ====
section
/-! DEFINITION. INPUT and OUTPUT and the I/O arbitration (42_io.md). -/

namespace Sys2Proof.Machine

/-- R90: does INPUT have a source for a value? -/
def inputAvailable (s : State) : Bool := !s.inq.isEmpty || s.config.hasProducer

/-- R90, R91: take the value: the queue has priority; with an empty queue the producer is called once, and its answer
is a free value (log 4). -/
def takeInput (s : State) : Word × State :=
  match s.inq with
  | v :: q => (v, s.setInq q)
  | [] => (Config.producerWord s.config.producerId s.producerCalls, s.setProducerCalls (s.producerCalls + 1))

/-- R88: a blocked INPUT whose instruction word is at `pc0`. -/
def blockInput (pc0 : Word) (s : State) : State := (s.setPc pc0).setStatus .awaitingInput

/-- R87, R89: INPUT. On entry `pc` is one past the instruction word, so `pc - 1` is `pc0`. -/
def execInput (m0 : Mode) (s : State) : Host.Outcome State Fault Refusal :=
  match fetch s with
  | .raised s1 => .next s1
  | .ok a s1 =>
    if inputAvailable s1 then
      finish (storeOperand a m0 (takeInput s1).1 (takeInput s1).2)
    else
      .next (blockInput (s.pc - 1) s1)

/-- R94: the sink of an output: the attached consumer, else the tail of OUTQ. -/
def emit (v : Word) (s : State) : State :=
  if s.config.hasConsumer then s.setDelivered (s.delivered ++ [v]) else s.setOutq (s.outq ++ [v])

/-- R93: OUTPUT. -/
def execOutput (m0 : Mode) (s : State) : Host.Outcome State Fault Refusal :=
  finish <| (readParam m0 s).bind fun a s1 => .ok () (emit a s1)

end Sys2Proof.Machine
end

