-- ==== Sys2Proof/Machine/Jumps.lean ====
section
/-! DEFINITION. JUMP-IF-TRUE and JUMP-IF-FALSE (43_jumps.md). Both parameters are always resolved, and the target is
copied into `pc` without any check (R99). -/

namespace Sys2Proof.Machine

/-- R100: JUMP-IF-TRUE. -/
def execJumpIfTrue (m0 m1 : Mode) (s : State) : Host.Outcome State Fault Refusal :=
  finish (jumpWhen (fun a => nonzeroWord a) m0 m1 s)

/-- R101: JUMP-IF-FALSE. -/
def execJumpIfFalse (m0 m1 : Mode) (s : State) : Host.Outcome State Fault Refusal :=
  finish (jumpWhen (fun a => !nonzeroWord a) m0 m1 s)

end Sys2Proof.Machine
end

