-- ==== Sys2Proof/Machine/RelativeBase.lean ====
section
/-! DEFINITION. ADJUST-RELATIVE-BASE (45_relative_base.md). -/

namespace Sys2Proof.Machine

/-- R111: ADJUST-RELATIVE-BASE. Its own parameter is resolved with the old `rb`. -/
def execAdjustRelativeBase (m0 : Mode) (s : State) : Host.Outcome State Fault Refusal :=
  finish <| (readParam m0 s).bind fun a s1 => .ok () (s1.setRb (wrap (s1.rb.toInt + a.toInt)))

end Sys2Proof.Machine
end

