-- ==== Sys2Proof/WellFormed.lean ====
section
/-! DEFINITION. Which terms of `Instr` an instruction word can decode to: every mode is one decimal digit
(30_encoding.md R48, R50). -/

namespace Sys2Proof

/-- A reserved mode is a digit 3 to 9 (R50, R59). -/
def Mode.wf : Mode → Bool
  | .position => true
  | .immediate => true
  | .relative => true
  | .reserved d => decide (3 ≤ d) && decide (d ≤ 9)

/-- Every mode of the instruction is well formed. -/
def Instr.wf : Instr → Bool
  | .add m0 m1 m2 => m0.wf && m1.wf && m2.wf
  | .mul m0 m1 m2 => m0.wf && m1.wf && m2.wf
  | .input m0 => m0.wf
  | .output m0 => m0.wf
  | .jumpIfTrue m0 m1 => m0.wf && m1.wf
  | .jumpIfFalse m0 m1 => m0.wf && m1.wf
  | .lessThan m0 m1 m2 => m0.wf && m1.wf && m2.wf
  | .equals m0 m1 m2 => m0.wf && m1.wf && m2.wf
  | .adjustRelativeBase m0 => m0.wf
  | .halt => true

end Sys2Proof
end

