-- ==== Sys2Proof/Decode.lean ====
section
/-! DEFINITION. The decoder of the Intcode core (30_encoding.md, 40_execution_cycle.md R65, R66, R72) and, after it,
the encoder. An instruction word is a decimal number: the two low digits are the opcode, the next three one
mode digit per parameter. -/

namespace Sys2Proof

/-- Why a word is no instruction. The first two make `step()` raise UnknownOpcode (R116). -/
inductive DecodeError where
  /-- R56: the instruction word is negative. -/
  | negativeWord (w : Word)
  /-- R55: the opcode is 0 or one of 10 to 98. -/
  | unknownOpcode (opcode : Nat)
  /-- A listing ends before the instruction does (only `decodeCells` says so: the machine fetches from memory). -/
  | truncated
  deriving DecidableEq, Repr

/-- R11: `digit_k(w)`, the decimal digit of weight `10^k` of a non-negative value. -/
def digit (k n : Nat) : Nat := n / 10 ^ k % 10

/-- R50: the mode a digit names. -/
def Mode.ofDigit : Nat → Mode
  | 0 => .position
  | 1 => .immediate
  | 2 => .relative
  | d => .reserved d

/-- R72: the instruction an opcode selects, given the three mode digits; a digit that belongs to no
parameter of the instruction is not examined (R58). -/
def selectInstr (opcode : Nat) (m0 m1 m2 : Mode) : Except DecodeError Instr :=
  match opcode with
  | 1 => .ok (.add m0 m1 m2)
  | 2 => .ok (.mul m0 m1 m2)
  | 3 => .ok (.input m0)
  | 4 => .ok (.output m0)
  | 5 => .ok (.jumpIfTrue m0 m1)
  | 6 => .ok (.jumpIfFalse m0 m1)
  | 7 => .ok (.lessThan m0 m1 m2)
  | 8 => .ok (.equals m0 m1 m2)
  | 9 => .ok (.adjustRelativeBase m0)
  | 99 => .ok .halt
  | op => .error (.unknownOpcode op)

/-- R65, R66, R72: decode an instruction word. A negative word is refused before any field is extracted. -/
def decode (w : Word) : Except DecodeError Instr :=
  if w.toInt < 0 then
    .error (.negativeWord w)
  else
    selectInstr (w.toNat % 100)
      (Mode.ofDigit (digit 2 w.toNat)) (Mode.ofDigit (digit 3 w.toNat)) (Mode.ofDigit (digit 4 w.toNat))

/-- The modes of the instruction's own parameters, parameter 0 first (R53). -/
def Instr.modes : Instr → List Mode
  | .add m0 m1 m2 => [m0, m1, m2]
  | .mul m0 m1 m2 => [m0, m1, m2]
  | .input m0 => [m0]
  | .output m0 => [m0]
  | .jumpIfTrue m0 m1 => [m0, m1]
  | .jumpIfFalse m0 m1 => [m0, m1]
  | .lessThan m0 m1 m2 => [m0, m1, m2]
  | .equals m0 m1 m2 => [m0, m1, m2]
  | .adjustRelativeBase m0 => [m0]
  | .halt => []

/-- R47, R53: how many operand cells follow the instruction word. -/
def Instr.paramCount (i : Instr) : Nat := i.modes.length

/-- R47: an instruction is read from its cells, the instruction word at the lowest address; the answer is the
instruction, its operands and the cells that follow it. -/
def decodeCells (cells : List Word) : Except DecodeError (Instr × List Word × List Word) :=
  match cells with
  | [] => .error .truncated
  | w :: rest =>
    match decode w with
    | .error e => .error e
    | .ok i =>
      if rest.length < i.paramCount then .error .truncated
      else .ok (i, rest.take i.paramCount, rest.drop i.paramCount)

/-! The encoder. -/

/-- R50: the digit of a mode. -/
def Mode.digit : Mode → Nat
  | .position => 0
  | .immediate => 1
  | .relative => 2
  | .reserved d => d

/-- R54: the opcode of an instruction. -/
def Instr.opcode : Instr → Nat
  | .add _ _ _ => 1
  | .mul _ _ _ => 2
  | .input _ => 3
  | .output _ => 4
  | .jumpIfTrue _ _ => 5
  | .jumpIfFalse _ _ => 6
  | .lessThan _ _ _ => 7
  | .equals _ _ _ => 8
  | .adjustRelativeBase _ => 9
  | .halt => 99

/-- R48: the mode digits above the opcode, parameter 0 the least significant. -/
def modesValue : List Mode → Nat
  | [] => 0
  | m :: ms => m.digit + 10 * modesValue ms

/-- R48: the instruction word as a number; the digits of absent parameters are 0 (R51). -/
def encodeNat (i : Instr) : Nat := i.opcode + 100 * modesValue i.modes

/-- R48: the instruction word. -/
def encode (i : Instr) : Word := BitVec.ofNat 64 (encodeNat i)

/-- R47: the cells of an instruction with its operands. -/
def encodeCells (i : Instr) (operands : List Word) : List Word := encode i :: operands

/-! The opcode table's bit numbering (the host's view of an instruction). -/

/-- The cells of an instruction whose bits are `w`, bit 0 the least significant bit of the first cell, 64 bits a
cell, the bits from `nbits` on being 0. Four cells, the length of the longest instruction (R53). -/
def tableCells (nbits w : Nat) : List Word :=
  let n := w % 2 ^ nbits
  [BitVec.ofNat 64 n, BitVec.ofNat 64 (n / 2 ^ xlen), BitVec.ofNat 64 (n / 2 ^ (2 * xlen)),
    BitVec.ofNat 64 (n / 2 ^ (3 * xlen))]

/-- The instruction the decoder reads from those cells. -/
def decodeTableWord (nbits w : Nat) : Option Instr :=
  match decodeCells (tableCells nbits w) with
  | .ok (i, _, _) => some i
  | .error _ => none

end Sys2Proof
end

