-- ==== Sys2Proof/Machine/Trace.lean ====
section
/-! DEFINITION. The trace port's line per executed instruction (60_exceptions.md R147; log 7). The fault lines are
emitted by `raise`. -/

namespace Sys2Proof.Machine

/-- DESIGN CHOICE (log 7): an instruction counts as executed when its handler came to its end: not when it raised a
fault and not when it blocked. -/
def completed (t : State) : Bool :=
  match t.status with
  | .running => true
  | .awaitingInput => false
  | .halted => decide (t.fcause = .none)

/-- The operand cells from `p` on. -/
def operandCells (s : State) (p : Word) : Nat → List Word
  | 0 => []
  | n + 1 => Memory.read p.toNat s.mem :: operandCells s (p + 1) n

/-- R147: the line of an instruction that was entered in `s` (with `pc` one past its word) and left `t`. -/
def executedLine (i : Instr) (s t : State) : List TraceEvent :=
  match s.config.verbosity with
  | .silent => []
  | .errorsOnly => []
  | .everyInstruction =>
    if completed t then [.executed (s.pc - 1) i (operandCells s s.pc i.paramCount)] else []

/-- Emit that line after the instruction. -/
def traceExecuted (i : Instr) (s : State) (o : Host.Outcome State Fault Refusal) :
    Host.Outcome State Fault Refusal :=
  match o with
  | .next t => .next (t.setTrace (t.trace ++ executedLine i s t))
  | .fault r => .fault r
  | .refused r => .refused r

end Sys2Proof.Machine
end

