-- ==== Sys2Proof/Machine/Step.lean ====
section
/-! DEFINITION. One `step()` (40_execution_cycle.md R63) and how an instruction is placed where it is fetched. -/

namespace Sys2Proof.Machine

/-- R63: decode and execute exactly one instruction. A halted core changes nothing (R74); a word that is no
instruction raises UnknownOpcode (R65, R116). -/
def step (s : State) : Host.Outcome State Fault Refusal :=
  if s.status = .halted then
    .next s
  else
    match fetch s with
    | .raised s1 => .next s1
    | .ok w s1 =>
      match decode w with
      | .error _ => .next (raise .unknownOpcode (.word w) s1)
      | .ok i => traceExecuted i s1 (exec i s1)

/-- Cells written from `pc` on, as far as memory reaches (log 11). A halted core fetches nothing, so it is made
running; everything else stays. -/
def State.withFetchWord (s : State) (nbits w : Nat) : State :=
  let room := s.config.memCells - s.pc.toNat
  let placed := s.setMem (Memory.writeAll s.pc.toNat ((tableCells nbits w).take room) s.mem)
  match s.status with
  | .running => placed
  | .awaitingInput => placed
  | .halted => (placed.setStatus .running).setFcause .none

end Sys2Proof.Machine
end

