-- ==== Sys2Proof/Machine/ProgramText.lean ====
section
/-! DEFINITION. Program text (30_encoding.md R61): comma-separated signed decimal integers, parsed into Words. The text
is a list of characters. -/

namespace Sys2Proof.Machine

/-- R61: space, tab, carriage return, line feed. -/
def isBlank (c : Char) : Bool := c == ' ' || c == '\t' || c == '\r' || c == '\n'

def trimStart : List Char → List Char
  | [] => []
  | c :: cs => if isBlank c then trimStart cs else c :: cs

/-- R61: without leading and trailing whitespace. -/
def trim (cs : List Char) : List Char := (trimStart (trimStart cs).reverse).reverse

/-- R61: split at every comma; there is always at least one token. -/
def splitCommas : List Char → List (List Char)
  | [] => [[]]
  | c :: cs =>
    if c == ',' then
      [] :: splitCommas cs
    else
      match splitCommas cs with
      | [] => [[c]]
      | t :: ts => (c :: t) :: ts

/-- The value of decimal digits read after `acc`; none at any other character. -/
def digitsValue (acc : Nat) : List Char → Option Nat
  | [] => some acc
  | c :: cs =>
    if 48 ≤ c.toNat ∧ c.toNat ≤ 57 then digitsValue (10 * acc + (c.toNat - 48)) cs else none

/-- R61: one or more digits. -/
def unsignedValue : List Char → Option Nat
  | [] => none
  | c :: cs => digitsValue 0 (c :: cs)

/-- R61: an integer that is a Word. -/
def wordOfInt (z : Int) : Option Word :=
  if -(2 ^ (xlen - 1) : Int) ≤ z ∧ z ≤ (2 ^ (xlen - 1) : Int) - 1 then some (BitVec.ofInt 64 z) else none

/-- R61: an optional sign and one or more digits. -/
def signedToken : List Char → Option Word
  | [] => none
  | c :: cs =>
    if c == '-' then (unsignedValue cs).bind fun n => wordOfInt (-(n : Int))
    else if c == '+' then (unsignedValue cs).bind fun n => wordOfInt (n : Int)
    else (unsignedValue (c :: cs)).bind fun n => wordOfInt (n : Int)

def parseTokens : List (List Char) → Option (List Word)
  | [] => some []
  | t :: ts =>
    match signedToken (trim t), parseTokens ts with
    | some w, some ws => some (w :: ws)
    | _, _ => none

/-- R61: the Words of a program text; none is FormatError (70_reset_and_hazards.md R157). -/
def parseProgram (text : List Char) : Option (List Word) := parseTokens (splitCommas (trim text))

end Sys2Proof.Machine
end

