-- ==== Sys2Proof/Machine/Run.lean ====
section
/-! DEFINITION. The result of a step and the free-running mode (40_execution_cycle.md R76 to R79). -/

namespace Sys2Proof.Machine

/-- R63: what `step()` returns. -/
inductive StepResult where
  | running
  | inputBlocked
  | haltRequested
  deriving DecidableEq, Repr

/-- R76: results and states correspond one to one. -/
def Status.result : Status → StepResult
  | .running => .running
  | .awaitingInput => .inputBlocked
  | .halted => .haltRequested

/-- R77: `run()` repeats `step()` until HaltRequested; it goes on after InputBlocked (R78). A model's executor runs under
a step budget (70_reset_and_hazards.md R168): none says that the budget ended first. -/
def run : Nat → State → Option State
  | 0, _ => none
  | n + 1, s =>
    match step s with
    | .next t => if t.status = .halted then some t else run n t
    | .fault _ => none
    | .refused _ => none

end Sys2Proof.Machine
end

