-- ==== Sys2Proof/Machine/HostPorts.lean ====
section
/-! DEFINITION. The operations the host performs on one core (60_exceptions.md R131 to R142, 70_reset_and_hazards.md
R152 to R159). Each is one atomic transaction between steps. -/

namespace Sys2Proof.Machine

/-- R118: the two load-time errors; they never reach FCAUSE. -/
inductive LoadError where
  /-- R157 -/
  | formatError
  /-- R156 -/
  | capacityExceeded
  deriving DecidableEq, Repr

/-- R154, R158: `load(program)`: element `i` goes to cell `i`; too long a program changes nothing. -/
def loadProgram (program : List Word) (s : State) : State × Option LoadError :=
  if s.config.memCells < program.length then (s, some .capacityExceeded)
  else (s.setMem (Memory.writeAll 0 program s.mem), none)

/-- R157, R158: load a program text; a text that does not parse changes nothing. -/
def loadText (text : List Char) (s : State) : State × Option LoadError :=
  match parseProgram text with
  | some program => loadProgram program s
  | none => (s, some .formatError)

/-- R132: `push(v)`. -/
def pushInput (v : Word) (s : State) : State := s.setInq (s.inq ++ [v])

/-- R133: `try_pop_output()`. -/
def tryPopOutput (s : State) : Option Word × State :=
  match s.outq with
  | v :: q => (some v, s.setOutq q)
  | [] => (none, s)

/-- R135: `blocking_pop_output()`; none while it waits. -/
def blockingPopOutput (s : State) : Option (Option Word × State) :=
  match s.outq with
  | v :: q => some (some v, s.setOutq q)
  | [] => if s.status = .halted then some (none, s) else none

/-- R136: `drain_all_outputs()`. -/
def drainAllOutputs (s : State) : List Word × State := (s.outq, s.setOutq [])

/-- R137: `pending_output_count()`. -/
def pendingOutputCount (s : State) : Nat := s.outq.length

/-- R139: `peek(a)`, defined for a valid address. -/
def peek (s : State) (a : Word) : Option Word :=
  match memRead s a with
  | .ok v => some v
  | .error _ => none

/-- R140: attach the producer function named `id`. -/
def attachProducer (id : Nat) (s : State) : State :=
  s.setConfig { s.config with hasProducer := true, producerId := id }

/-- R140: attach a consumer function. -/
def attachConsumer (s : State) : State := s.setConfig { s.config with hasConsumer := true }

/-- R27: set VERBOSITY. -/
def setVerbosity (v : Verbosity) (s : State) : State := s.setConfig { s.config with verbosity := v }

/-- A core and whether the configuration may still change: "before the first step after a reset" (R142, D29). -/
structure Session where
  core : State
  fresh : Bool
  deriving DecidableEq, Repr

/-- R141: a newly created core. -/
def Session.create (c : Config) : Session := { core := State.create c, fresh := true }

/-- The host's operations on one core. `run()` adds nothing to repeated steps (R77). -/
inductive HostOp where
  | reset
  | load (program : List Word)
  | loadText (text : List Char)
  /-- R159: reset first and unconditionally, then validate and copy -/
  | resetAndLoad (program : List Word)
  | resetAndLoadText (text : List Char)
  | step
  | push (v : Word)
  | tryPopOutput
  | blockingPopOutput
  | drainAllOutputs
  | pendingOutputCount
  | readStatus
  | readFcause
  | peek (a : Word)
  | attachProducer (id : Nat)
  | attachConsumer
  | setVerbosity (v : Verbosity)
  deriving DecidableEq, Repr

/-- What an operation answers. -/
inductive HostReply where
  | done
  | loaded (error : Option LoadError)
  | stepped (result : StepResult)
  | popped (value : Option Word)
  | drained (values : List Word)
  | counted (n : Nat)
  | status (x : Status)
  | cause (c : FCause)
  | cell (v : Word)
  deriving DecidableEq, Repr

/-- A configuration operation, allowed only before the first step after a reset (R142). -/
def Session.configure (f : State → State) (x : Session) : Option (HostReply × Session) :=
  if x.fresh then some (.done, { x with core := f x.core }) else none

/-- R142: one operation of the host. None: it is not allowed now, or waits. -/
def hostApply (op : HostOp) (x : Session) : Option (HostReply × Session) :=
  match op with
  | .reset => some (.done, { core := x.core.resetCore, fresh := true })
  | .load p => some (.loaded (loadProgram p x.core).2, { x with core := (loadProgram p x.core).1 })
  | .loadText t =>
    some (.loaded (Sys2Proof.Machine.loadText t x.core).2,
      { x with core := (Sys2Proof.Machine.loadText t x.core).1 })
  | .resetAndLoad p =>
    some (.loaded (loadProgram p x.core.resetCore).2,
      { core := (loadProgram p x.core.resetCore).1, fresh := true })
  | .resetAndLoadText t =>
    some (.loaded (Sys2Proof.Machine.loadText t x.core.resetCore).2,
      { core := (Sys2Proof.Machine.loadText t x.core.resetCore).1, fresh := true })
  | .step =>
    match Sys2Proof.Machine.step x.core with
    | .next t => some (.stepped t.status.result, { core := t, fresh := false })
    | .fault _ => none
    | .refused _ => none
  | .push v => some (.done, { x with core := pushInput v x.core })
  | .tryPopOutput =>
    some (.popped (Sys2Proof.Machine.tryPopOutput x.core).1,
      { x with core := (Sys2Proof.Machine.tryPopOutput x.core).2 })
  | .blockingPopOutput =>
    match Sys2Proof.Machine.blockingPopOutput x.core with
    | some (v, t) => some (.popped v, { x with core := t })
    | none => none
  | .drainAllOutputs =>
    some (.drained (Sys2Proof.Machine.drainAllOutputs x.core).1,
      { x with core := (Sys2Proof.Machine.drainAllOutputs x.core).2 })
  | .pendingOutputCount => some (.counted (Sys2Proof.Machine.pendingOutputCount x.core), x)
  | .readStatus => some (.status x.core.status, x)
  | .readFcause => some (.cause x.core.fcause, x)
  | .peek a =>
    match Sys2Proof.Machine.peek x.core a with
    | some v => some (.cell v, x)
    | none => none
  | .attachProducer id => x.configure (Sys2Proof.Machine.attachProducer id)
  | .attachConsumer => x.configure Sys2Proof.Machine.attachConsumer
  | .setVerbosity v => x.configure (Sys2Proof.Machine.setVerbosity v)

end Sys2Proof.Machine
end

