-- ==== Sys2Proof/Machine/System.lean ====
section
/-! DEFINITION. Several cores wired through shared queues (60_exceptions.md R143 to R146). A channel is one FIFO queue:
the OUTQ of some instances and the INQ of others. The host chooses which instance the next operation acts on, so every
interleaving (R144) is a list of operations. R143 does not say when a wiring is made, whether it may change later, or what
becomes of values already queued: the model's answer is log 14 (DESIGN CHOICE). -/

namespace Sys2Proof.Machine

/-- One instance: its private state (its own queue fields stay empty: the channels hold the values) and its wiring. DESIGN
CHOICE (log 14): the wiring is given with the system, and no operation creates an instance in it or changes a wiring. -/
structure CoreInstance where
  session : Session
  /-- the channel that is its INQ -/
  inChan : Nat
  /-- the channel that is its OUTQ -/
  outChan : Nat
  deriving DecidableEq, Repr

/-- The instances, their wiring included, and the contents of the channels. DESIGN CHOICE (log 14): what a channel holds when
the wiring is made is part of the system that is given, as R143 does not say what becomes of values already queued. -/
structure System where
  instances : List CoreInstance
  channels : List (List Word)
  deriving DecidableEq, Repr

/-- Every instance is wired to channels that exist. -/
def System.wired (S : System) : Bool :=
  S.instances.all fun n => decide (n.inChan < S.channels.length) && decide (n.outChan < S.channels.length)

/-- The values in a channel, head first. -/
def System.channel (S : System) (c : Nat) : List Word := S.channels.getD c []

def System.setChannel (c : Nat) (q : List Word) (S : System) : System :=
  { S with channels := S.channels.set c q }

/-- The instance as one core, its queues being the channels it is wired to. DESIGN CHOICE (log 14): the channels replace the
instance's own two queues, so what these held before the wiring is not read. -/
def System.view (S : System) (n : CoreInstance) : Session :=
  { n.session with core := (n.session.core.setInq (S.channel n.inChan)).setOutq (S.channel n.outChan) }

/-- Put back what one operation did to instance `k`: its private state, and the queue it changed. Each operation changes
one of the two queues or empties both, so this also serves an instance whose OUTQ is its own INQ. -/
def System.putBack (k : Nat) (n : CoreInstance) (before after : Session) (S : System) : System :=
  let S1 := S.setChannel n.inChan after.core.inq
  let S2 := if after.core.outq = before.core.outq then S1 else S1.setChannel n.outChan after.core.outq
  { S2 with
    instances := S2.instances.set k
      { n with session := { after with core := (after.core.setInq []).setOutq [] } } }

/-- One operation of the host on instance `k`. None: no such instance, or the operation is not allowed now or waits. -/
def System.apply (k : Nat) (op : HostOp) (S : System) : Option (HostReply × System) :=
  match S.instances[k]? with
  | none => none
  | some n =>
    match hostApply op (S.view n) with
    | none => none
    | some (r, after) => some (r, S.putBack k n (S.view n) after)

/-- A schedule: the operations performed, in order (R144). None: one of them was not possible. -/
def System.applyAll : List (Nat × HostOp) → System → Option System
  | [], S => some S
  | (k, op) :: rest, S =>
    match S.apply k op with
    | some (_, S') => System.applyAll rest S'
    | none => none

/-- R145: a wired system has finished when every instance is Halted. -/
def System.finished (S : System) : Bool :=
  S.instances.all fun n => decide (n.session.core.status = .halted)

end Sys2Proof.Machine
end

