-- ==== Sys2Proof/Safety.lean ====
section
/-! DEFINITION. The vocabulary of the statements: what a legal state is, when an instruction runs to its end, which
fault it meets first, where it stores, and the parts of a state that are the model's own records. -/

namespace Sys2Proof.Machine

/-! ### Legal states -/

/-- The invariant of a core: memory in canonical form and inside the array (10_state.md R16), a legal MEM_CELLS
(00_scope.md R6), and a fault cause only in a halted core (R24). -/
def State.inv (s : State) : Bool :=
  Memory.wf s.mem && (s.mem.all fun c => decide (c.1 < s.config.memCells)) && s.config.wf &&
    (decide (s.fcause = .none) || decide (s.status = .halted))

/-- The invariant of a core with its host: in addition OUTQ stays empty while a consumer is attached (42_io.md R94),
and a core that has not been stepped since its reset is at cell 0, running (R30). -/
def Session.inv (x : Session) : Bool :=
  x.core.inv && (!x.core.config.hasConsumer || x.core.outq.isEmpty) &&
    (!x.fresh || (decide (x.core.pc = 0) && decide (x.core.rb = 0) && decide (x.core.status = .running) &&
      x.core.outq.isEmpty))

/-! ### Addresses and parameters, spelled out

The statements use these and not the functions the meanings call, so that a wrong bounds check or a wrong operand form
in a meaning makes a statement false. -/

/-- 20_memory.md R32: a valid address. -/
abbrev validCell (s : State) (a : Word) : Prop := 0 ≤ a.toInt ∧ a.toInt < (s.config.memCells : Int)

/-- What the cell at an address holds, if there is such a cell. -/
def cellAt (s : State) (a : Word) : Option Word :=
  if validCell s a then some (Memory.read a.toNat s.mem) else none

/-- 40_execution_cycle.md R68, R71: the Word that a source parameter with operand `o` yields. -/
def paramSource (s : State) (m : Mode) (o : Word) : Option Word :=
  match m with
  | .position => cellAt s o
  | .immediate => some o
  | .relative => cellAt s (wrap (s.rb.toInt + o.toInt))
  | .reserved _ => none

/-- 40_execution_cycle.md R69, R71: the cell that a destination parameter with operand `o` names. -/
def paramCell (s : State) (m : Mode) (o : Word) : Option Nat :=
  match m with
  | .position => if validCell s o then some o.toNat else none
  | .immediate => none
  | .relative =>
    if validCell s (wrap (s.rb.toInt + o.toInt)) then some (wrap (s.rb.toInt + o.toInt)).toNat else none
  | .reserved _ => none

/-- 30_encoding.md R52: the kinds of parameter. -/
inductive ParamKind where
  | source
  | dest
  deriving DecidableEq, Repr

/-- 60_exceptions.md R119 (b) to (e): what resolving a parameter with operand `o` reports, if it faults. -/
def paramFault (s : State) (m : Mode) (k : ParamKind) (o : Word) : Option FaultInfo :=
  match m with
  | .position => if validCell s o then none else some (.address o)
  | .immediate =>
    match k with
    | .source => none
    | .dest => some (.mode .immediate)
  | .relative =>
    if validCell s (wrap (s.rb.toInt + o.toInt)) then none else some (.address (wrap (s.rb.toInt + o.toInt)))
  | .reserved d => some (.mode (.reserved d))

/-! ### When an instruction runs to its end

`s` is the state on entry to the handler: `s.pc` is the address of the first operand. -/

/-- Format RRW (R53): the operand cells can be read, the sources yield `a` and `b`, the destination is cell `d`. -/
def runsRRW (s : State) (m0 m1 m2 : Mode) (a b : Word) (d : Nat) : Prop :=
  ∃ o0 o1 o2, cellAt s s.pc = some o0 ∧ paramSource s m0 o0 = some a ∧
    cellAt s (s.pc + 1) = some o1 ∧ paramSource s m1 o1 = some b ∧
    cellAt s (s.pc + 2) = some o2 ∧ paramCell s m2 o2 = some d

/-- Format RR: the sources yield `a` and `b`. -/
def runsRR (s : State) (m0 m1 : Mode) (a b : Word) : Prop :=
  ∃ o0 o1, cellAt s s.pc = some o0 ∧ paramSource s m0 o0 = some a ∧
    cellAt s (s.pc + 1) = some o1 ∧ paramSource s m1 o1 = some b

/-- Format R: the source yields `a`. -/
def runsR (s : State) (m0 : Mode) (a : Word) : Prop :=
  ∃ o0, cellAt s s.pc = some o0 ∧ paramSource s m0 o0 = some a

/-! ### Which fault comes first -/

/-- R53: the parameters of an instruction, in order. -/
def paramsOf : Instr → List (Mode × ParamKind)
  | .add m0 m1 m2 => [(m0, .source), (m1, .source), (m2, .dest)]
  | .mul m0 m1 m2 => [(m0, .source), (m1, .source), (m2, .dest)]
  | .input m0 => [(m0, .dest)]
  | .output m0 => [(m0, .source)]
  | .jumpIfTrue m0 m1 => [(m0, .source), (m1, .source)]
  | .jumpIfFalse m0 m1 => [(m0, .source), (m1, .source)]
  | .lessThan m0 m1 m2 => [(m0, .source), (m1, .source), (m2, .dest)]
  | .equals m0 m1 m2 => [(m0, .source), (m1, .source), (m2, .dest)]
  | .adjustRelativeBase m0 => [(m0, .source)]
  | .halt => []

/-- 60_exceptions.md R124: the first AddressFault the parameters meet when their operands are the cells from `p` on, and
the value `pc` then has: each parameter's operand fetch comes before its mode and address tests, and `pc` has passed
the operand when these fault. -/
def firstFault (s : State) : List (Mode × ParamKind) → Word → Option (FaultInfo × Word)
  | [], _ => none
  | (m, k) :: rest, p =>
    match cellAt s p with
    | none => some (.address p, p)
    | some o =>
      match paramFault s m k o with
      | some e => some (e, p + 1)
      | none => firstFault s rest (p + 1)

/-! ### Where an instruction stores -/

/-- The cell that a destination parameter whose operand is at `p` names, with the function the meanings use. -/
def destinationAt (s : State) (m : Mode) (p : Word) : Option Nat :=
  match memRead s p with
  | .error _ => none
  | .ok o =>
    match destination s m o with
    | .ok d => some d
    | .error _ => none

/-- The cell an instruction stores to, when it stores: the destination parameter is the last one (R52). -/
def storeAddress (i : Instr) (s : State) : Option Nat :=
  match i with
  | .add _ _ m2 => destinationAt s m2 (s.pc + 2)
  | .mul _ _ m2 => destinationAt s m2 (s.pc + 2)
  | .input m0 => destinationAt s m0 s.pc
  | .output _ => none
  | .jumpIfTrue _ _ => none
  | .jumpIfFalse _ _ => none
  | .lessThan _ _ m2 => destinationAt s m2 (s.pc + 2)
  | .equals _ _ m2 => destinationAt s m2 (s.pc + 2)
  | .adjustRelativeBase _ => none
  | .halt => none

/-! ### The model's own records -/

/-- The state without the record of the trace port (60_exceptions.md R147: it has no effect on the rest). -/
def State.withoutTrace (s : State) : State := s.setTrace []

/-- The state the spec gives the core: without the model's own records (logs 4, 6, 7). -/
def State.architectural (s : State) : State := ((s.setProducerCalls 0).setDelivered []).setTrace []

/-- 70_reset_and_hazards.md R160: reset, load, then push the inputs in order. -/
def prepare (program inputs : List Word) (s : State) : State :=
  inputs.foldl (fun t v => pushInput v t) (loadProgram program s.resetCore).1

/-- `n` calls of `try_pop_output()` (60_exceptions.md R133), each of which must yield a value. -/
def popMany : Nat → State → Option (List Word × State)
  | 0, s => some ([], s)
  | n + 1, s =>
    match tryPopOutput s with
    | (none, _) => none
    | (some v, t) =>
      match popMany n t with
      | none => none
      | some (vs, u) => some (v :: vs, u)

/-- One step of instance `k`, without the reply. -/
def System.stepOf (k : Nat) (S : System) : Option System :=
  match S.apply k .step with
  | none => none
  | some (_, T) => some T

end Sys2Proof.Machine
end

