-- ==== Sys2Proof/Certificates/Slice0/Obligations.lean ====
section
/-! DEFINITION. The statements about the Intcode core, each a Prop named for what it says. "On entry" means the state a
handler sees: `pc` is one past the instruction word (41_arithmetic.md). The clauses of one statement exclude each other by
their form: a parameter list has a first fault or none, and `runsRRW`, `runsRR`, `runsR` hold when it has none. -/

open Sys2Proof Sys2Proof.Machine

/-! ## Encoding -/

/-- One word per instruction, written from 30_encoding.md sections 1 and 3 (eight of them, and 0, 33 and -1, are worked
decodes of section 6; 1006 and 1008 are not), and words section 4 calls illegal or says more of. That -1 is refused rests on
the spec's decision D4, that the mode digits of 1199 are ignored on its decision D6 (log 10). -/
def Obligations.SpecWordsDecode : Prop :=
  decode 1 = .ok (.add .position .position .position) ∧
  decode 1002 = .ok (.mul .position .immediate .position) ∧
  decode 203 = .ok (.input .relative) ∧
  decode 204 = .ok (.output .relative) ∧
  decode 1105 = .ok (.jumpIfTrue .immediate .immediate) ∧
  decode 1006 = .ok (.jumpIfFalse .position .immediate) ∧
  decode 21107 = .ok (.lessThan .immediate .immediate .relative) ∧
  decode 1008 = .ok (.equals .position .immediate .position) ∧
  decode 109 = .ok (.adjustRelativeBase .immediate) ∧
  decode 1199 = .ok .halt ∧
  decode 0 = .error (.unknownOpcode 0) ∧
  decode 33 = .error (.unknownOpcode 33) ∧
  decode (-1) = .error (.negativeWord (-1))

/-- R54: the opcode map. For a word that is not negative, `w mod 100` selects the instruction, and the ten opcodes are
the whole set. -/
def Obligations.OpcodeSelectsInstruction : Prop :=
  ∀ w : Word, 0 ≤ w.toInt →
    ((∃ m0 m1 m2, decode w = .ok (.add m0 m1 m2)) ↔ w.toNat % 100 = 1) ∧
    ((∃ m0 m1 m2, decode w = .ok (.mul m0 m1 m2)) ↔ w.toNat % 100 = 2) ∧
    ((∃ m0, decode w = .ok (.input m0)) ↔ w.toNat % 100 = 3) ∧
    ((∃ m0, decode w = .ok (.output m0)) ↔ w.toNat % 100 = 4) ∧
    ((∃ m0 m1, decode w = .ok (.jumpIfTrue m0 m1)) ↔ w.toNat % 100 = 5) ∧
    ((∃ m0 m1, decode w = .ok (.jumpIfFalse m0 m1)) ↔ w.toNat % 100 = 6) ∧
    ((∃ m0 m1 m2, decode w = .ok (.lessThan m0 m1 m2)) ↔ w.toNat % 100 = 7) ∧
    ((∃ m0 m1 m2, decode w = .ok (.equals m0 m1 m2)) ↔ w.toNat % 100 = 8) ∧
    ((∃ m0, decode w = .ok (.adjustRelativeBase m0)) ↔ w.toNat % 100 = 9) ∧
    (decode w = .ok .halt ↔ w.toNat % 100 = 99) ∧
    ((∃ i, decode w = .ok i) ↔ w.toNat % 100 ∈ [1, 2, 3, 4, 5, 6, 7, 8, 9, 99])

/-- 30_encoding.md section 1 (the formula of R49): the modes of the instruction's parameters are the decimal digits 2, 3
and 4 of the word, as many as it has parameters. -/
def Obligations.DecodedModesAreDigits : Prop :=
  ∀ (w : Word) (i : Instr), decode w = .ok i →
    i.modes = [Mode.ofDigit (w.toNat / 100 % 10), Mode.ofDigit (w.toNat / 1000 % 10),
      Mode.ofDigit (w.toNat / 10000 % 10)].take i.paramCount

/-- Headline: decoding the encoding of any well-formed instruction gives it back, with every mode at every digit. -/
def Obligations.DecodeEncodeRoundTrip : Prop :=
  ∀ i : Instr, i.wf = true → decode (encode i) = .ok i

/-- 30_encoding.md section 1 (R47): an instruction and its operands are read back from their cells, whatever follows, and
the operands may be any Words. -/
def Obligations.CellsRoundTrip : Prop :=
  ∀ (i : Instr) (operands rest : List Word), i.wf = true → operands.length = i.paramCount →
    decodeCells (encodeCells i operands ++ rest) = .ok (i, operands, rest)

/-- Decoding yields a well-formed instruction, from a word that is not negative and whose examined digits are those of
the encoder. -/
def Obligations.DecodedIsCanonical : Prop :=
  ∀ (w : Word) (i : Instr), decode w = .ok i →
    i.wf = true ∧ 0 ≤ w.toInt ∧ w.toNat % 10 ^ (2 + i.paramCount) = encodeNat i

/-- The spec's decisions D5 and D6 (92_eei_decisions.md): digits of weight 10^5 and above and mode digits of absent
parameters are not examined. Two words that agree on the examined digits decode alike. -/
def Obligations.DecodeIgnoresUnexaminedDigits : Prop :=
  ∀ (w w' : Word) (i : Instr), decode w = .ok i → 0 ≤ w'.toInt →
    w'.toNat % 10 ^ (2 + i.paramCount) = w.toNat % 10 ^ (2 + i.paramCount) → decode w' = .ok i

/-! ## The step -/

/-- 40_execution_cycle.md section 1: when the cell at `pc` can be read and decodes to `i`, a step of a core that is not
halted is `exec i` on the state with `pc` one past that cell, and then the trace line (log 7), which only VERBOSITY 2
emits. -/
def Obligations.StepRunsDecodedInstruction : Prop :=
  ∀ (s : State) (w : Word) (i : Instr), s.status ≠ .halted → cellAt s s.pc = some w → decode w = .ok i →
    step s = traceExecuted i (s.setPc (s.pc + 1)) (exec i (s.setPc (s.pc + 1))) ∧
    (s.config.verbosity ≠ .everyInstruction → step s = exec i (s.setPc (s.pc + 1)))

/-- The spec's decision D12: a step of a halted core changes no state. -/
def Obligations.HaltedStepChangesNothing : Prop :=
  ∀ s : State, s.status = .halted → step s = .next s

/-- The spec's decision D9: a fetch outside memory raises AddressFault and leaves `pc` at the invalid value. -/
def Obligations.FetchOutsideMemoryFaults : Prop :=
  ∀ s : State, s.status ≠ .halted → ¬ (0 ≤ s.pc.toInt ∧ s.pc.toInt < s.config.memCells) →
    step s = .next { s with
      fcause := .addressFault, status := .halted,
      trace := s.trace ++ faultLine .addressFault (.address s.pc) s }

/-- 46_halt.md section on the unknown opcode (with the spec's decision D4 for a negative word): the word is refused after
it was fetched and before any operand is. -/
def Obligations.UnknownOpcodeHalts : Prop :=
  ∀ (s : State) (w : Word), s.status ≠ .halted → cellAt s s.pc = some w →
    (w.toInt < 0 ∨ w.toNat % 100 ∉ [1, 2, 3, 4, 5, 6, 7, 8, 9, 99]) →
    step s = .next { s with
      pc := s.pc + 1, fcause := .unknownOpcode, status := .halted,
      trace := s.trace ++ faultLine .unknownOpcode (.word w) s }

/-- R75: whether STATUS is Running or AwaitingInput on entry, a step fetches the word at `pc` and executes the instruction it
decodes to, whatever that is (the trace aside, which is no part of R75); the step is the same in both; and a step that blocks
leaves `pc` where it was, so the next one tries the same instruction again. -/
def Obligations.AwaitingInputStepsLikeRunning : Prop :=
  (∀ s : State, step (s.setStatus .awaitingInput) = step (s.setStatus .running)) ∧
  (∀ (s : State) (x : Status) (w : Word) (i : Instr), x = .running ∨ x = .awaitingInput → cellAt s s.pc = some w →
    decode w = .ok i → ∃ t u, exec i ((s.setStatus x).setPc (s.pc + 1)) = .next t ∧ step (s.setStatus x) = .next u ∧
      { u with trace := t.trace } = t) ∧
  (∀ s t : State, s.status ≠ .halted → step s = .next t → t.status = .awaitingInput → t.pc = s.pc)

/-! ## The ten instructions

Where a parameter faults, `raise` writes FCAUSE and STATUS and emits the fault's line; what that line holds is the model's
choice (log 7, DESIGN CHOICE) and no part of the rules these statements cite. -/

/-- R82: ADD. Its encoding; its effect when its operands can be read (all else unchanged); its exceptions, the first one
met in the order R81 lists (the decisions D7, D8, D9 of the spec are in `paramFault`, `paramCell`,
`paramSource` and `firstFault`). -/
def Obligations.AddStoresWrappedSum : Prop :=
  (∀ w : Word, (∃ m0 m1 m2, decode w = .ok (.add m0 m1 m2)) ↔ 0 ≤ w.toInt ∧ w.toNat % 100 = 1) ∧
  ∀ (m0 m1 m2 : Mode) (s : State),
    (∀ a b d, runsRRW s m0 m1 m2 a b d →
      exec (.add m0 m1 m2) s = .next { s with
        mem := Memory.write d (wrap (a.toInt + b.toInt)) s.mem, pc := s.pc + 3, status := .running }) ∧
    (∀ e p, firstFault s [(m0, .source), (m1, .source), (m2, .dest)] s.pc = some (e, p) →
      exec (.add m0 m1 m2) s = .next (raise .addressFault e { s with pc := p }))

/-- R83: MUL. -/
def Obligations.MulStoresWrappedProduct : Prop :=
  (∀ w : Word, (∃ m0 m1 m2, decode w = .ok (.mul m0 m1 m2)) ↔ 0 ≤ w.toInt ∧ w.toNat % 100 = 2) ∧
  ∀ (m0 m1 m2 : Mode) (s : State),
    (∀ a b d, runsRRW s m0 m1 m2 a b d →
      exec (.mul m0 m1 m2) s = .next { s with
        mem := Memory.write d (wrap (a.toInt * b.toInt)) s.mem, pc := s.pc + 3, status := .running }) ∧
    (∀ e p, firstFault s [(m0, .source), (m1, .source), (m2, .dest)] s.pc = some (e, p) →
      exec (.mul m0 m1 m2) s = .next (raise .addressFault e { s with pc := p }))

/-- R106: LESS-THAN, the signed order. -/
def Obligations.LessThanStoresTruth : Prop :=
  (∀ w : Word, (∃ m0 m1 m2, decode w = .ok (.lessThan m0 m1 m2)) ↔ 0 ≤ w.toInt ∧ w.toNat % 100 = 7) ∧
  ∀ (m0 m1 m2 : Mode) (s : State),
    (∀ a b d, runsRRW s m0 m1 m2 a b d →
      exec (.lessThan m0 m1 m2) s = .next { s with
        mem := Memory.write d (if a.toInt < b.toInt then 1 else 0) s.mem, pc := s.pc + 3, status := .running }) ∧
    (∀ e p, firstFault s [(m0, .source), (m1, .source), (m2, .dest)] s.pc = some (e, p) →
      exec (.lessThan m0 m1 m2) s = .next (raise .addressFault e { s with pc := p }))

/-- R107: EQUALS. -/
def Obligations.EqualsStoresTruth : Prop :=
  (∀ w : Word, (∃ m0 m1 m2, decode w = .ok (.equals m0 m1 m2)) ↔ 0 ≤ w.toInt ∧ w.toNat % 100 = 8) ∧
  ∀ (m0 m1 m2 : Mode) (s : State),
    (∀ a b d, runsRRW s m0 m1 m2 a b d →
      exec (.equals m0 m1 m2) s = .next { s with
        mem := Memory.write d (if a = b then 1 else 0) s.mem, pc := s.pc + 3, status := .running }) ∧
    (∀ e p, firstFault s [(m0, .source), (m1, .source), (m2, .dest)] s.pc = some (e, p) →
      exec (.equals m0 m1 m2) s = .next (raise .addressFault e { s with pc := p }))

/-- R87: INPUT, case by case in the order of its sub-operations: the operand fetch; no source has a value (it blocks, `pc`
back at the instruction word); the value is taken and stored; the value is taken and the destination faults (in R87's
listing the value is taken before StoreOperand; R89 calls the loss the spec's decision D11). `Config.producerWord` is the free value
of log 4. -/
def Obligations.InputFollowsItsOrder : Prop :=
  (∀ w : Word, (∃ m0, decode w = .ok (.input m0)) ↔ 0 ≤ w.toInt ∧ w.toNat % 100 = 3) ∧
  ∀ (m0 : Mode) (s : State),
    (cellAt s s.pc = none → exec (.input m0) s = .next (raise .addressFault (.address s.pc) s)) ∧
    (∀ o, cellAt s s.pc = some o → s.inq = [] → s.config.hasProducer = false →
      exec (.input m0) s = .next { s with pc := s.pc - 1, status := .awaitingInput }) ∧
    (∀ o v q d, cellAt s s.pc = some o → s.inq = v :: q → paramCell s m0 o = some d →
      exec (.input m0) s = .next { s with
        mem := Memory.write d v s.mem, pc := s.pc + 1, inq := q, status := .running }) ∧
    (∀ o v q e, cellAt s s.pc = some o → s.inq = v :: q → paramFault s m0 .dest o = some e →
      exec (.input m0) s = .next (raise .addressFault e { s with pc := s.pc + 1, inq := q })) ∧
    (∀ o d, cellAt s s.pc = some o → s.inq = [] → s.config.hasProducer = true → paramCell s m0 o = some d →
      exec (.input m0) s = .next { s with
        mem := Memory.write d (Config.producerWord s.config.producerId s.producerCalls) s.mem,
        pc := s.pc + 1, producerCalls := s.producerCalls + 1, status := .running }) ∧
    (∀ o e, cellAt s s.pc = some o → s.inq = [] → s.config.hasProducer = true → paramFault s m0 .dest o = some e →
      exec (.input m0) s = .next (raise .addressFault e
        { s with pc := s.pc + 1, producerCalls := s.producerCalls + 1 }))

/-- R88: a step that meets an INPUT whose operand can be read, with an empty INQ and no producer, changes STATUS and nothing
else (the trace aside, of which R88 says nothing), however often it is repeated; after one value is pushed the next step
completes the instruction. -/
def Obligations.BlockedInputIsRetried : Prop :=
  ∀ (s : State) (w o : Word) (m0 : Mode), s.status ≠ .halted → cellAt s s.pc = some w → decode w = .ok (.input m0) →
    cellAt s (s.pc + 1) = some o → s.inq = [] → s.config.hasProducer = false →
    ∃ b c, step s = .next b ∧ { b with trace := s.trace } = { s with status := .awaitingInput } ∧
    step b = .next c ∧ { c with trace := s.trace } = { s with status := .awaitingInput } ∧
    ∀ v d, paramCell s m0 o = some d → ∃ t, step (pushInput v b) = .next t ∧
      t.mem = Memory.write d v s.mem ∧ t.pc = s.pc + 2 ∧ t.inq = [] ∧ t.status = .running ∧
      t.rb = s.rb ∧ t.outq = s.outq ∧ t.fcause = s.fcause ∧ t.config = s.config

/-- R90: the decision table of the input sources, evaluated once per executed INPUT, after the operand fetch and whatever the
destination is; the value stored, where the destination names a cell, is the one the table gives. -/
def Obligations.InputArbitration : Prop :=
  ∀ (m0 : Mode) (s : State) (o : Word), cellAt s s.pc = some o →
    ∃ t, exec (.input m0) s = .next t ∧
      (∀ v q, s.inq = v :: q → t.inq = q ∧ t.producerCalls = s.producerCalls ∧
        ∀ d, paramCell s m0 o = some d → Memory.read d t.mem = v ∧ t.status = .running) ∧
      (s.inq = [] → s.config.hasProducer = true → t.inq = [] ∧ t.producerCalls = s.producerCalls + 1 ∧
        ∀ d, paramCell s m0 o = some d → t.status = .running ∧
          Memory.read d t.mem = Config.producerWord s.config.producerId s.producerCalls) ∧
      (s.inq = [] → s.config.hasProducer = false →
        t.inq = [] ∧ t.producerCalls = s.producerCalls ∧ t.mem = s.mem ∧ t.status = .awaitingInput)

/-- R93: OUTPUT: to the consumer when one is attached, else to the tail of OUTQ (that the consumer's values leave OUTQ
untouched is R93's own case split; R94 marks it as the spec's decision D16). On a fault nothing is emitted. -/
def Obligations.OutputEmitsValue : Prop :=
  (∀ w : Word, (∃ m0, decode w = .ok (.output m0)) ↔ 0 ≤ w.toInt ∧ w.toNat % 100 = 4) ∧
  ∀ (m0 : Mode) (s : State),
    (∀ a, runsR s m0 a → s.config.hasConsumer = false →
      exec (.output m0) s = .next { s with outq := s.outq ++ [a], pc := s.pc + 1, status := .running }) ∧
    (∀ a, runsR s m0 a → s.config.hasConsumer = true →
      exec (.output m0) s = .next { s with delivered := s.delivered ++ [a], pc := s.pc + 1, status := .running }) ∧
    (∀ e p, firstFault s [(m0, .source)] s.pc = some (e, p) →
      exec (.output m0) s = .next (raise .addressFault e { s with pc := p }))

/-- R100: JUMP-IF-TRUE. A taken jump copies the target into `pc` as it is. -/
def Obligations.JumpIfTrueJumpsOnNonzero : Prop :=
  (∀ w : Word, (∃ m0 m1, decode w = .ok (.jumpIfTrue m0 m1)) ↔ 0 ≤ w.toInt ∧ w.toNat % 100 = 5) ∧
  ∀ (m0 m1 : Mode) (s : State),
    (∀ a b, runsRR s m0 m1 a b →
      exec (.jumpIfTrue m0 m1) s = .next { s with pc := if a ≠ 0 then b else s.pc + 2, status := .running }) ∧
    (∀ e p, firstFault s [(m0, .source), (m1, .source)] s.pc = some (e, p) →
      exec (.jumpIfTrue m0 m1) s = .next (raise .addressFault e { s with pc := p }))

/-- R101: JUMP-IF-FALSE. -/
def Obligations.JumpIfFalseJumpsOnZero : Prop :=
  (∀ w : Word, (∃ m0 m1, decode w = .ok (.jumpIfFalse m0 m1)) ↔ 0 ≤ w.toInt ∧ w.toNat % 100 = 6) ∧
  ∀ (m0 m1 : Mode) (s : State),
    (∀ a b, runsRR s m0 m1 a b →
      exec (.jumpIfFalse m0 m1) s = .next { s with pc := if a = 0 then b else s.pc + 2, status := .running }) ∧
    (∀ e p, firstFault s [(m0, .source), (m1, .source)] s.pc = some (e, p) →
      exec (.jumpIfFalse m0 m1) s = .next (raise .addressFault e { s with pc := p }))

/-- R111: ADJUST-RELATIVE-BASE. The parameter is resolved in `s`, with the old `rb`. -/
def Obligations.AdjustAddsToRelativeBase : Prop :=
  (∀ w : Word, (∃ m0, decode w = .ok (.adjustRelativeBase m0)) ↔ 0 ≤ w.toInt ∧ w.toNat % 100 = 9) ∧
  ∀ (m0 : Mode) (s : State),
    (∀ a, runsR s m0 a →
      exec (.adjustRelativeBase m0) s = .next { s with
        rb := wrap (s.rb.toInt + a.toInt), pc := s.pc + 1, status := .running }) ∧
    (∀ e p, firstFault s [(m0, .source)] s.pc = some (e, p) →
      exec (.adjustRelativeBase m0) s = .next (raise .addressFault e { s with pc := p }))

/-- R114: HALT. STATUS becomes Halted and everything else stays; every later step changes nothing, under `run()` too; of the
host's operations only `reset()`, alone or before a load, makes the core executable again. -/
def Obligations.HaltStopsTheCore : Prop :=
  (∀ w : Word, decode w = .ok .halt ↔ 0 ≤ w.toInt ∧ w.toNat % 100 = 99) ∧
  ∀ s : State,
    exec .halt s = .next { s with status := .halted } ∧
    step { s with status := .halted } = .next { s with status := .halted } ∧
    (∀ n, run (n + 1) { s with status := .halted } = some { s with status := .halted }) ∧
    ({ s with status := Status.halted }).resetCore.status = .running ∧
    ∀ (op : HostOp) (x y : Session) (r : HostReply), x.core.status = .halted → hostApply op x = some (r, y) →
      y.core.status = .halted ∨ op = .reset ∨ (∃ p, op = .resetAndLoad p) ∨ ∃ text, op = .resetAndLoadText text

/-! ## Consequences for control flow -/

/-- 43_jumps.md section on both jumps: exactly one of the two jumps transfers control (derived there from R100, R101). -/
def Obligations.JumpsAreComplementary : Prop :=
  ∀ (m0 m1 : Mode) (s : State) (a b : Word), runsRR s m0 m1 a b →
    ∃ t u, exec (.jumpIfTrue m0 m1) s = .next t ∧ exec (.jumpIfFalse m0 m1) s = .next u ∧
      (a ≠ 0 → t.pc = b ∧ u.pc = s.pc + 2) ∧ (a = 0 → t.pc = s.pc + 2 ∧ u.pc = b)

/-- 43_jumps.md, with the spec's decision D9: a taken jump of either kind to a target outside memory completes, and the next
step raises AddressFault at its fetch with `pc` at the bad value. -/
def Obligations.JumpOutsideFaultsAtNextFetch : Prop :=
  ∀ (m0 m1 : Mode) (i : Instr) (s : State) (a b : Word), runsRR s m0 m1 a b →
    (i = .jumpIfTrue m0 m1 ∧ a ≠ 0 ∨ i = .jumpIfFalse m0 m1 ∧ a = 0) →
    ¬ (0 ≤ b.toInt ∧ b.toInt < s.config.memCells) →
    ∃ t u, exec i s = .next t ∧ t.status = .running ∧ t.fcause = s.fcause ∧ t.pc = b ∧
      step t = .next u ∧ u.status = .halted ∧ u.fcause = .addressFault ∧ u.pc = b ∧ u.mem = s.mem

/-- 20_memory.md section 3: a store is seen by the fetch of the very next instruction. For every storing instruction whose
destination is the cell after it: the four of format RRW, and INPUT from INQ and from the producer (its free value, log 4). -/
def Obligations.StoreIsSeenByNextFetch : Prop :=
  (∀ (m0 m1 m2 : Mode) (s : State) (a b : Word), runsRRW s m0 m1 m2 a b (s.pc + 3).toNat →
    (∃ t, exec (.add m0 m1 m2) s = .next t ∧ t.pc = s.pc + 3 ∧ cellAt t t.pc = some (wrap (a.toInt + b.toInt))) ∧
    (∃ t, exec (.mul m0 m1 m2) s = .next t ∧ t.pc = s.pc + 3 ∧ cellAt t t.pc = some (wrap (a.toInt * b.toInt))) ∧
    (∃ t, exec (.lessThan m0 m1 m2) s = .next t ∧ t.pc = s.pc + 3 ∧
      cellAt t t.pc = some (if a.toInt < b.toInt then 1 else 0)) ∧
    (∃ t, exec (.equals m0 m1 m2) s = .next t ∧ t.pc = s.pc + 3 ∧ cellAt t t.pc = some (if a = b then 1 else 0))) ∧
  (∀ (m0 : Mode) (s : State) (o v : Word), cellAt s s.pc = some o → paramCell s m0 o = some (s.pc + 1).toNat →
    (s.inq.head? = some v ∨ s.inq = [] ∧ s.config.hasProducer = true ∧
      v = Config.producerWord s.config.producerId s.producerCalls) →
    ∃ t, exec (.input m0) s = .next t ∧ t.pc = s.pc + 1 ∧ cellAt t t.pc = some v)

/-- 43_jumps.md on sequential flow: every instruction but a jump that completes leaves `pc` after its last operand. -/
def Obligations.CompletedInstructionAdvancesPc : Prop :=
  ∀ (i : Instr) (s t : State), i.opcode ≠ 5 → i.opcode ≠ 6 → exec i s = .next t → t.status = .running →
    t.pc = s.pc + BitVec.ofNat 64 i.paramCount

/-! ## Frames -/

/-- What ADD, MUL, LESS-THAN and EQUALS leave unchanged: every register but `pc`, the queues, the configuration, and
every cell but the one stored to; they either complete, or take an AddressFault with memory unchanged. -/
def Obligations.FrameOfStoringInstructions : Prop :=
  ∀ (m0 m1 m2 : Mode) (i : Instr) (s t : State),
    i ∈ [Instr.add m0 m1 m2, .mul m0 m1 m2, .lessThan m0 m1 m2, .equals m0 m1 m2] → exec i s = .next t →
    t.rb = s.rb ∧ t.inq = s.inq ∧ t.outq = s.outq ∧ t.config = s.config ∧ t.producerCalls = s.producerCalls ∧
    t.delivered = s.delivered ∧
    (∀ a, storeAddress i s ≠ some a → Memory.read a t.mem = Memory.read a s.mem) ∧
    ((t.status = .running ∧ t.fcause = s.fcause ∧ t.trace = s.trace) ∨
      (t.status = .halted ∧ t.fcause = .addressFault ∧ t.mem = s.mem ∧
        ∃ e, t.trace = s.trace ++ faultLine .addressFault e s))

/-- What OUTPUT, the two jumps, ADJUST-RELATIVE-BASE and HALT leave unchanged: all of memory, INQ, the configuration; `rb`
but for ADJUST-RELATIVE-BASE; the output side but for OUTPUT. -/
def Obligations.FrameOfNonStoringInstructions : Prop :=
  ∀ (m0 m1 : Mode) (i : Instr) (s t : State),
    i ∈ [Instr.output m0, .jumpIfTrue m0 m1, .jumpIfFalse m0 m1, .adjustRelativeBase m0, .halt] → exec i s = .next t →
    (∀ a, Memory.read a t.mem = Memory.read a s.mem) ∧ t.mem = s.mem ∧
    t.inq = s.inq ∧ t.config = s.config ∧ t.producerCalls = s.producerCalls ∧
    (i ≠ .adjustRelativeBase m0 → t.rb = s.rb) ∧
    (i ≠ .output m0 → t.outq = s.outq ∧ t.delivered = s.delivered) ∧
    ((t.status = (if i = .halt then .halted else .running) ∧ t.fcause = s.fcause ∧ t.trace = s.trace) ∨
      (t.status = .halted ∧ t.fcause = .addressFault ∧ t.rb = s.rb ∧ t.outq = s.outq ∧ t.delivered = s.delivered ∧
        ∃ e, t.trace = s.trace ++ faultLine .addressFault e s))

/-- What INPUT leaves unchanged: `rb`, the output side, the configuration, every cell but the one stored to; INQ loses at
most its head and the producer is called at most once. -/
def Obligations.FrameOfInput : Prop :=
  ∀ (m0 : Mode) (s t : State), exec (.input m0) s = .next t →
    t.rb = s.rb ∧ t.outq = s.outq ∧ t.config = s.config ∧ t.delivered = s.delivered ∧
    (t.inq = s.inq ∨ t.inq = s.inq.tail) ∧
    (t.producerCalls = s.producerCalls ∨ t.producerCalls = s.producerCalls + 1) ∧
    (∀ a, storeAddress (.input m0) s ≠ some a → Memory.read a t.mem = Memory.read a s.mem) ∧
    ((t.status = .running ∧ t.fcause = s.fcause ∧ t.trace = s.trace) ∨
      (t.status = .awaitingInput ∧ t.fcause = s.fcause ∧ t.trace = s.trace ∧ t.mem = s.mem ∧ t.inq = s.inq ∧
        t.producerCalls = s.producerCalls) ∨
      (t.status = .halted ∧ t.fcause = .addressFault ∧ t.mem = s.mem ∧
        ∃ e, t.trace = s.trace ++ faultLine .addressFault e s))

/-! ## Whole-machine rules -/

/-- 45_relative_base.md: `rb` is "mutated only by" ADJUST-RELATIVE-BASE. -/
def Obligations.OnlyAdjustWritesRelativeBase : Prop :=
  ∀ s t : State, step s = .next t → t.rb ≠ s.rb →
    ∃ w m0, cellAt s s.pc = some w ∧ decode w = .ok (.adjustRelativeBase m0)

/-- 42_io.md: only INPUT touches INQ, and takes at most its head; only OUTPUT touches OUTQ, and appends at most one
value. -/
def Obligations.OnlyIoTouchesQueues : Prop :=
  ∀ s t : State, step s = .next t →
    (t.inq = s.inq ∨ ∃ w m0 v, cellAt s s.pc = some w ∧ decode w = .ok (.input m0) ∧ s.inq = v :: t.inq) ∧
    (t.outq = s.outq ∨ ∃ w m0 v, cellAt s s.pc = some w ∧ decode w = .ok (.output m0) ∧
      runsR (s.setPc (s.pc + 1)) m0 v ∧ t.outq = s.outq ++ [v])

/-- 20_memory.md on the accesses of a step: at most one write. A step leaves memory as it was, or the instruction at `pc` has
a destination parameter, its last, whose operand names a cell (R69, R71), and every other cell reads as before. -/
def Obligations.StepStoresOnlyAtDestination : Prop :=
  ∀ s t : State, step s = .next t →
    t.mem = s.mem ∨ ∃ w i m o d, cellAt s s.pc = some w ∧ decode w = .ok i ∧
      (paramsOf i).getLast? = some (m, .dest) ∧ cellAt s (s.pc + BitVec.ofNat 64 i.paramCount) = some o ∧
      paramCell s m o = some d ∧ ∀ a, a ≠ d → Memory.read a t.mem = Memory.read a s.mem

/-- The spec's decision D3 as the fault entry of 60_exceptions.md states it: a step that faults leaves memory, `rb` and the
output side as they were and the core Halted; only a value INPUT had taken is gone. -/
def Obligations.FaultLeavesMemoryAndBase : Prop :=
  ∀ s t : State, s.fcause = .none → step s = .next t → t.fcause ≠ .none →
    t.status = .halted ∧ t.mem = s.mem ∧ t.rb = s.rb ∧ t.outq = s.outq ∧ t.delivered = s.delivered ∧
    t.config = s.config ∧ (t.inq = s.inq ∨ t.inq = s.inq.tail)

/-- 60_exceptions.md section 1, the complete lists of causes, spelled out. A step raises AddressFault exactly when (a) `pc` or
the address of an operand is outside memory, or a parameter with operand `o` is (b) Position with `o` outside memory, (c)
Relative with `wrap(rb + o)` outside memory, (d) Immediate and a destination, (e) of a mode 3 to 9, (b) to (e) unless it is
the parameter of an INPUT that blocks; and UnknownOpcode exactly at a word that is negative or has an opcode outside the
set. -/
def Obligations.FaultCauses : Prop :=
  ∀ s t : State, s.status ≠ .halted → s.fcause = .none → step s = .next t →
    (t.fcause = .addressFault ↔
      ¬ (0 ≤ s.pc.toInt ∧ s.pc.toInt < s.config.memCells) ∨
      ∃ (i : Instr) (k : Nat) (m : Mode) (kind : ParamKind) (p o : Word),
        0 ≤ s.pc.toInt ∧ s.pc.toInt < s.config.memCells ∧ decode (Memory.read s.pc.toNat s.mem) = .ok i ∧
        (paramsOf i)[k]? = some (m, kind) ∧ p = s.pc + 1 + BitVec.ofNat 64 k ∧ o = Memory.read p.toNat s.mem ∧
        (¬ (0 ≤ p.toInt ∧ p.toInt < s.config.memCells) ∨
          ((m = .position ∧ ¬ (0 ≤ o.toInt ∧ o.toInt < s.config.memCells)) ∨
            (m = .relative ∧ ¬ (0 ≤ (wrap (s.rb.toInt + o.toInt)).toInt ∧
              (wrap (s.rb.toInt + o.toInt)).toInt < s.config.memCells)) ∨
            (m = .immediate ∧ kind = .dest) ∨ (∃ d, m = .reserved d)) ∧
          ((∀ m0, i ≠ .input m0) ∨ s.inq ≠ [] ∨ s.config.hasProducer = true))) ∧
    (t.fcause = .unknownOpcode ↔
      0 ≤ s.pc.toInt ∧ s.pc.toInt < s.config.memCells ∧
      ((Memory.read s.pc.toNat s.mem).toInt < 0 ∨
        (Memory.read s.pc.toNat s.mem).toNat % 100 ∉ [1, 2, 3, 4, 5, 6, 7, 8, 9, 99]))

/-- 60_exceptions.md on the wait state: a step answers AwaitingInput, entering it or staying in it, only at an INPUT with no
source of a value, and then changes nothing but STATUS. That it adds no line to the trace, at VERBOSITY 2 either, is the
model's choice (log 7, DESIGN CHOICE): R147 does not say whether a blocked INPUT counts as executed. -/
def Obligations.OnlyBlockedInputAwaits : Prop :=
  ∀ s t : State, step s = .next t → t.status = .awaitingInput →
    t = { s with status := .awaitingInput } ∧ s.inq = [] ∧ s.config.hasProducer = false ∧
    ∃ w m0, cellAt s s.pc = some w ∧ decode w = .ok (.input m0)

/-! ## Arithmetic -/

/-- 00_scope.md on values: `wrap z` is the one Word congruent to `z` modulo 2^64. -/
def Obligations.WrapIsTheCongruentWord : Prop :=
  ∀ z : Int, (wrap z).toInt % 2 ^ 64 = z % 2 ^ 64 ∧
    -(2 ^ 63) ≤ (wrap z).toInt ∧ (wrap z).toInt ≤ 2 ^ 63 - 1 ∧
    ∀ r : Word, r.toInt % 2 ^ 64 = z % 2 ^ 64 → r = wrap z

/-- 41_arithmetic.md on the width: every sum and product that lies in the Word range is exact. -/
def Obligations.ResultsInRangeAreExact : Prop :=
  (∀ a b : Word, -(2 ^ 63) ≤ a.toInt + b.toInt → a.toInt + b.toInt ≤ 2 ^ 63 - 1 →
    (wrap (a.toInt + b.toInt)).toInt = a.toInt + b.toInt) ∧
  (∀ a b : Word, -(2 ^ 63) ≤ a.toInt * b.toInt → a.toInt * b.toInt ≤ 2 ^ 63 - 1 →
    (wrap (a.toInt * b.toInt)).toInt = a.toInt * b.toInt)

/-! ## Reset and invariants -/

/-- 10_state.md section 9: a new core, whatever its configuration. That STATUS is Running is the spec's decision D13, that
FCAUSE exists D10; the model's own records start empty (logs 4, 6, 7: the model's choice). -/
def Obligations.NewCoreIsInResetState : Prop :=
  ∀ c : Config,
    (∀ a, Memory.read a (State.create c).mem = 0) ∧ (State.create c).pc = 0 ∧ (State.create c).rb = 0 ∧
    (State.create c).inq = [] ∧ (State.create c).outq = [] ∧ (State.create c).status = .running ∧
    (State.create c).fcause = .none ∧ (State.create c).config = c ∧
    Sys2Proof.core.reset = State.create Config.initial ∧
    Config.initial.hasProducer = false ∧ Config.initial.hasConsumer = false

/-- 70_reset_and_hazards.md section 1: `reset()` from any state gives, but for the configuration and the model's own
records, a new core's state. -/
def Obligations.ResetGivesNewCoreState : Prop :=
  ∀ s : State, s.resetCore.architectural = State.create s.config

/-- The invariant holds in every new core with a legal MEM_CELLS, and at reset. -/
def Obligations.InvariantHoldsAtReset : Prop :=
  (∀ c : Config, c.wf = true → (State.create c).inv = true ∧ (Session.create c).inv = true) ∧
  Sys2Proof.core.reset.inv = true

/-- Headline: every step keeps the invariant (memory canonical and inside the array, MEM_CELLS legal, a fault cause only in
a halted core), from every state that meets it; and every step answers a next state. -/
def Obligations.StepKeepsInvariant : Prop :=
  ∀ s : State, s.inv = true → ∃ t, Sys2Proof.core.step s = .next t ∧ t.inv = true

/-- Every operation of the host keeps the invariant of a core with its host. -/
def Obligations.HostOperationsKeepInvariant : Prop :=
  ∀ (op : HostOp) (x y : Session) (r : HostReply), x.inv = true → hostApply op x = some (r, y) → y.inv = true

/-! ## Program load -/

/-- 70_reset_and_hazards.md section 2 (the spec's decision D14 for what stays): a program that fits goes to cells 0 to
N - 1 and nothing else changes. -/
def Obligations.LoadPlacesProgram : Prop :=
  ∀ (p : List Word) (s : State), p.length ≤ s.config.memCells →
    ∃ m, loadProgram p s = ({ s with mem := m }, none) ∧
      (∀ i (h : i < p.length), Memory.read i m = p[i]) ∧
      (∀ a, p.length ≤ a → Memory.read a m = Memory.read a s.mem)

/-- R156: CapacityExceeded exactly when the program is longer than memory; FCAUSE and STATUS are not touched. -/
def Obligations.CapacityExceededWhenTooLong : Prop :=
  ∀ (p : List Word) (s : State),
    ((loadProgram p s).2 = some .capacityExceeded ↔ s.config.memCells < p.length) ∧
    (loadProgram p s).1.fcause = s.fcause ∧ (loadProgram p s).1.status = s.status

/-- 70_reset_and_hazards.md section 2 with the spec's decisions D18 and D22: FormatError exactly when some token of the
text is no Word, and then nothing changes; a text whose tokens are all Words loads them. -/
def Obligations.FormatErrorOnBadToken : Prop :=
  ∀ (text : List Char) (s : State),
    ((loadText text s).2 = some .formatError ↔ ∃ k ∈ splitCommas (trim text), signedToken (trim k) = none) ∧
    ((∃ k ∈ splitCommas (trim text), signedToken (trim k) = none) → (loadText text s).1 = s) ∧
    (∀ p, (splitCommas (trim text)).map (fun k => signedToken (trim k)) = p.map some →
      loadText text s = loadProgram p s)

/-! ## Output handle, queues, run -/

/-- R133, R136, R137: the polling pop, the drain and the count, on an empty and on a non-empty OUTQ. -/
def Obligations.OutputHandleOperations : Prop :=
  (∀ s : State, s.outq = [] → tryPopOutput s = (none, s) ∧ drainAllOutputs s = ([], s) ∧ pendingOutputCount s = 0) ∧
  (∀ (s : State) (v : Word) (q : List Word), s.outq = v :: q →
    tryPopOutput s = (some v, { s with outq := q }) ∧ drainAllOutputs s = (v :: q, { s with outq := [] }) ∧
    pendingOutputCount s = q.length + 1)

/-- 20_memory.md on queue order: popping value by value gives what one drain gives, in the same order and the same final
state. -/
def Obligations.PopsGiveWhatDrainGives : Prop :=
  ∀ s : State, popMany (pendingOutputCount s) s = some (drainAllOutputs s)

/-- The spec's decision D27: the blocking pop waits exactly while OUTQ is empty and the core is not halted, and answers "no
value" exactly when OUTQ is empty and the core is halted. -/
def Obligations.BlockingPopWaits : Prop :=
  ∀ s : State,
    (blockingPopOutput s = none ↔ s.outq = [] ∧ s.status ≠ .halted) ∧
    (blockingPopOutput s = some (none, s) ↔ s.outq = [] ∧ s.status = .halted) ∧
    (∀ v q, s.outq = v :: q → blockingPopOutput s = some (some v, { s with outq := q }))

/-- 20_memory.md sections 2: a push by another agent while INQ holds a value commutes with a step: neither sees the
other. -/
def Obligations.PushCommutesWithStep : Prop :=
  ∀ (s t : State) (v : Word), s.inq ≠ [] → step s = .next t → step (pushInput v s) = .next (pushInput v t)

/-- 40_execution_cycle.md section 4: `run()` ends only in Halted, and a larger budget changes nothing. -/
def Obligations.RunEndsHalted : Prop :=
  ∀ (n k : Nat) (s t : State), run n s = some t → t.status = .halted ∧ run (n + k) s = some t

/-- The spec's decision D17: `run()` on a core blocked with no source of a value never returns. -/
def Obligations.BlockedRunNeverReturns : Prop :=
  ∀ (s : State) (w o : Word) (m0 : Mode), s.status ≠ .halted → cellAt s s.pc = some w → decode w = .ok (.input m0) →
    cellAt s (s.pc + 1) = some o → s.inq = [] → s.config.hasProducer = false → ∀ n, run n s = none

/-! ## Determinism and the trace -/

/-- 60_exceptions.md on the trace port: VERBOSITY has no effect on anything but the trace. -/
def Obligations.VerbosityHasNoEffect : Prop :=
  ∀ (s t : State) (v : Verbosity), step s = .next t →
    ∃ u, step (setVerbosity v s) = .next u ∧ u.withoutTrace = (setVerbosity v t).withoutTrace

/-- 70_reset_and_hazards.md section 3: without a producer a step is a function of the architectural state alone: the
model's own records do not influence it. -/
def Obligations.StepIgnoresRecords : Prop :=
  ∀ s s' t t' : State, s.config.hasProducer = false → s.architectural = s'.architectural →
    step s = .next t → step s' = .next t' → t.architectural = t'.architectural

/-- 70_reset_and_hazards.md section 3 (idempotence): reset, load, push, run twice in a row, with no producer
attached: the second run ends too, in the same architectural state, and hands the consumer the same values again. -/
def Obligations.ResetLoadRunIsIdempotent : Prop :=
  ∀ (program inputs : List Word) (n : Nat) (s t : State), s.config.hasProducer = false →
    run n (prepare program inputs s) = some t →
    ∃ u, run n (prepare program inputs t) = some u ∧ u.architectural = t.architectural ∧
      ∃ d, t.delivered = s.delivered ++ d ∧ u.delivered = t.delivered ++ d

/-! ## Several cores

For every system: every wiring and all contents of the channels. That an operation leaves the wiring alone is log 14's (DESIGN
CHOICE). -/

/-- 10_state.md section 1 (private state): an operation on one instance leaves every other instance, and every channel it
is not wired to, as they were. -/
def Obligations.OperationsOnOneCoreArePrivate : Prop :=
  ∀ (S T : System) (k : Nat) (op : HostOp) (r : HostReply) (n : CoreInstance), S.instances[k]? = some n →
    S.apply k op = some (r, T) →
    (∀ j, j ≠ k → T.instances[j]? = S.instances[j]?) ∧
    (∀ c, c ≠ n.inChan → c ≠ n.outChan → T.channel c = S.channel c) ∧
    (∃ x, T.instances[k]? = some x ∧ x.inChan = n.inChan ∧ x.outChan = n.outChan)

/-- 42_io.md on chained instances: an OUTPUT step of an instance without a consumer appends its value to the channel that
is another instance's INQ, where the next step of that instance finds it; nothing else in any channel changes. -/
def Obligations.OutputReachesTheChannel : Prop :=
  ∀ (S : System) (k : Nat) (n : CoreInstance) (w a : Word) (m0 : Mode), S.wired = true → S.instances[k]? = some n →
    n.session.core.status ≠ .halted → n.session.core.config.hasConsumer = false →
    cellAt n.session.core n.session.core.pc = some w → decode w = .ok (.output m0) →
    runsR (n.session.core.setPc (n.session.core.pc + 1)) m0 a →
    ∃ T, S.apply k .step = some (.stepped .running, T) ∧
      T.channel n.outChan = S.channel n.outChan ++ [a] ∧
      ∀ c, c ≠ n.outChan → T.channel c = S.channel c

/-- The spec's decision D30: `reset()` of an instance empties both channels it is wired to. -/
def Obligations.ResetEmptiesBothChannels : Prop :=
  ∀ (S : System) (k : Nat) (n : CoreInstance), S.wired = true → S.instances[k]? = some n →
    ∃ T, S.apply k .reset = some (.done, T) ∧ T.channel n.inChan = [] ∧ T.channel n.outChan = []

/-- 60_exceptions.md on scheduling (derived there; D28): with one reader and one writer for a channel, the steps of two
instances that both find a value in their input channel can be taken in either order, with the same result. -/
def Obligations.StepsOfTwoCoresCommute : Prop :=
  ∀ (S : System) (j k : Nat) (a b : CoreInstance), S.wired = true → j ≠ k →
    S.instances[j]? = some a → S.instances[k]? = some b →
    a.inChan ≠ b.inChan → a.outChan ≠ b.outChan → S.channel a.inChan ≠ [] → S.channel b.inChan ≠ [] →
    ∃ T, (S.stepOf j).bind (System.stepOf k) = some T ∧ (S.stepOf k).bind (System.stepOf j) = some T
end

