-- ==== Sys2Proof/Laws/Decode.lean ====
section
/-! SUPPORT. What the decoder can answer: one case lemma for the opcode, the mode digits both ways, and the sign test. -/

namespace Sys2Proof

/-- Everything `selectInstr` can answer, by opcode. -/
theorem selectInstr_cases (k : Nat) (m0 m1 m2 : Mode) :
    (k = 1 ∧ selectInstr k m0 m1 m2 = .ok (.add m0 m1 m2)) ∨
    (k = 2 ∧ selectInstr k m0 m1 m2 = .ok (.mul m0 m1 m2)) ∨
    (k = 3 ∧ selectInstr k m0 m1 m2 = .ok (.input m0)) ∨
    (k = 4 ∧ selectInstr k m0 m1 m2 = .ok (.output m0)) ∨
    (k = 5 ∧ selectInstr k m0 m1 m2 = .ok (.jumpIfTrue m0 m1)) ∨
    (k = 6 ∧ selectInstr k m0 m1 m2 = .ok (.jumpIfFalse m0 m1)) ∨
    (k = 7 ∧ selectInstr k m0 m1 m2 = .ok (.lessThan m0 m1 m2)) ∨
    (k = 8 ∧ selectInstr k m0 m1 m2 = .ok (.equals m0 m1 m2)) ∨
    (k = 9 ∧ selectInstr k m0 m1 m2 = .ok (.adjustRelativeBase m0)) ∨
    (k = 99 ∧ selectInstr k m0 m1 m2 = .ok .halt) ∨
    (k ∉ [1, 2, 3, 4, 5, 6, 7, 8, 9, 99] ∧ selectInstr k m0 m1 m2 = .error (.unknownOpcode k)) := by
  unfold selectInstr
  split <;> simp_all

theorem digit_of_ofDigit (d : Nat) : (Mode.ofDigit d).digit = d := by
  unfold Mode.ofDigit
  split <;> rfl

theorem ofDigit_of_digit {m : Mode} (h : m.wf = true) : Mode.ofDigit m.digit = m := by
  cases m with
  | reserved d =>
    simp only [Mode.wf, Bool.and_eq_true, decide_eq_true_eq] at h
    obtain ⟨h1, h2⟩ := h
    interval_cases d <;> rfl
  | position => rfl
  | immediate => rfl
  | relative => rfl

theorem ofDigit_wf {d : Nat} (h : d < 10) : (Mode.ofDigit d).wf = true := by
  interval_cases d <;> rfl

/-- R65: only a word that is not negative reaches the opcode. -/
theorem decode_nonneg {w : Word} (h : 0 ≤ w.toInt) :
    decode w = selectInstr (w.toNat % 100) (Mode.ofDigit (digit 2 w.toNat)) (Mode.ofDigit (digit 3 w.toNat))
      (Mode.ofDigit (digit 4 w.toNat)) := by
  rw [decode, if_neg (by omega)]

theorem nonneg_of_decode {w : Word} {i : Instr} (h : decode w = .ok i) : 0 ≤ w.toInt := by
  rw [decode] at h
  split at h
  · cases h
  · omega

end Sys2Proof
end

