-- ==== Sys2Proof/Laws/Memory.lean ====
section
/-! SUPPORT. The laws of the memory array: a read after a write gives the value written, a write leaves every other
cell alone, and every operation keeps the canonical form. None of the read laws needs the canonical form. -/

namespace Sys2Proof.Machine

@[simp] theorem read_nil (a : Nat) : Memory.read a [] = 0 := rfl

theorem read_erase_same (a : Nat) (m : Memory) : Memory.read a (Memory.erase a m) = 0 := by
  induction m with
  | nil => rfl
  | cons c m ih =>
    obtain ⟨b, w⟩ := c
    by_cases h : a = b
    · rw [Memory.erase, if_pos h, ih]
    · simp [Memory.erase, Memory.read, h, ih]

theorem read_erase_other {a b : Nat} (h : b ≠ a) (m : Memory) :
    Memory.read b (Memory.erase a m) = Memory.read b m := by
  induction m with
  | nil => rfl
  | cons c m ih =>
    obtain ⟨x, w⟩ := c
    by_cases hx : a = x
    · subst hx
      simp [Memory.erase, Memory.read, h, ih]
    · simp only [Memory.erase, hx, if_false, Memory.read, ih]

theorem read_insert_other {a b : Nat} (h : b ≠ a) (v : Word) (m : Memory) :
    Memory.read b (Memory.insert a v m) = Memory.read b m := by
  induction m with
  | nil => simp [Memory.insert, Memory.read, h]
  | cons c m ih =>
    obtain ⟨x, w⟩ := c
    by_cases hx : a < x
    · simp [Memory.insert, Memory.read, h, hx]
    · simp only [Memory.insert, hx, if_false, Memory.read, ih]

/-- No entry of `m` is at address `a`. -/
def Unlisted (a : Nat) (m : Memory) : Prop := ∀ c ∈ m, c.1 ≠ a

theorem unlisted_erase (a : Nat) (m : Memory) : Unlisted a (Memory.erase a m) := by
  induction m with
  | nil => simp [Unlisted, Memory.erase]
  | cons c m ih =>
    obtain ⟨b, w⟩ := c
    by_cases h : a = b
    · rw [Memory.erase, if_pos h]
      exact ih
    · intro e he
      simp only [Memory.erase, h, if_false, List.mem_cons] at he
      rcases he with rfl | he
      · exact fun hb => h hb.symm
      · exact ih e he

theorem read_insert_same {a : Nat} (v : Word) {m : Memory} (h : Unlisted a m) :
    Memory.read a (Memory.insert a v m) = v := by
  induction m with
  | nil => simp [Memory.insert, Memory.read]
  | cons c m ih =>
    obtain ⟨b, w⟩ := c
    have hb : a ≠ b := fun e => h (b, w) (by simp) e.symm
    by_cases hx : a < b
    · rw [Memory.insert, if_pos hx, Memory.read, if_pos rfl]
    · simp only [Memory.insert, hx, if_false, Memory.read, hb]
      exact ih fun e he => h e (by simp [he])

/-- 20_memory.md R40: a read after a write to the same cell. -/
@[simp] theorem read_write_same (a : Nat) (v : Word) (m : Memory) :
    Memory.read a (Memory.write a v m) = v := by
  by_cases h : v = 0
  · rw [Memory.write, if_pos h, read_erase_same, h]
  · rw [Memory.write, if_neg h, read_insert_same v (unlisted_erase a m)]

/-- 20_memory.md R40: a write leaves every other cell alone. -/
theorem read_write_other {a b : Nat} (h : b ≠ a) (v : Word) (m : Memory) :
    Memory.read b (Memory.write a v m) = Memory.read b m := by
  by_cases hv : v = 0
  · rw [Memory.write, if_pos hv, read_erase_other h]
  · rw [Memory.write, if_neg hv, read_insert_other h, read_erase_other h]

theorem read_write (a b : Nat) (v : Word) (m : Memory) :
    Memory.read b (Memory.write a v m) = if b = a then v else Memory.read b m := by
  by_cases h : b = a
  · simp [h]
  · simp [h, read_write_other h]

/-- Consecutive writes leave the cells outside them alone. -/
theorem read_writeAll_outside (vs : List Word) (a : Nat) (m : Memory) {b : Nat}
    (h : b < a ∨ a + vs.length ≤ b) : Memory.read b (Memory.writeAll a vs m) = Memory.read b m := by
  induction vs generalizing a m with
  | nil => rfl
  | cons v vs ih =>
    simp only [List.length_cons] at h
    rw [Memory.writeAll, ih (a + 1) _ (by omega), read_write_other (by omega)]

/-- Consecutive writes put element `i` in cell `a + i`. -/
theorem read_writeAll_inside (vs : List Word) (a : Nat) (m : Memory) {i : Nat} (h : i < vs.length) :
    Memory.read (a + i) (Memory.writeAll a vs m) = vs[i] := by
  induction vs generalizing a m i with
  | nil => simp at h
  | cons v vs ih =>
    cases i with
    | zero => rw [Memory.writeAll, read_writeAll_outside _ _ _ (by omega)]; simp
    | succ i =>
      have := ih (a + 1) (Memory.write a v m) (i := i) (by simpa using h)
      rw [Memory.writeAll, List.getElem_cons_succ, ← this]
      congr 1
      omega

/-! ### The canonical form -/

/-- Every listed address is above `n`. -/
def Above (n : Nat) (m : Memory) : Prop := ∀ c ∈ m, n < c.1

theorem wf_cons (a : Nat) (w : Word) (m : Memory) :
    Memory.wf ((a, w) :: m) = true ↔ w ≠ 0 ∧ Above a m ∧ Memory.wf m = true := by
  induction m generalizing a w with
  | nil => simp [Memory.wf, Above]
  | cons c m ih =>
    obtain ⟨b, x⟩ := c
    rw [Memory.wf]
    simp only [Bool.and_eq_true, decide_eq_true_eq]
    constructor
    · rintro ⟨⟨hw, hab⟩, hm⟩
      refine ⟨hw, ?_, hm⟩
      intro e he
      rcases List.mem_cons.1 he with rfl | he
      · exact hab
      · exact lt_trans hab (((ih b x).1 hm).2.1 e he)
    · rintro ⟨hw, hab, hm⟩
      exact ⟨⟨hw, hab (b, x) (by simp)⟩, hm⟩

theorem mem_of_mem_erase {a : Nat} {m : Memory} {c : Nat × Word} (h : c ∈ Memory.erase a m) : c ∈ m := by
  induction m with
  | nil => simp [Memory.erase] at h
  | cons d m ih =>
    obtain ⟨b, w⟩ := d
    by_cases hb : a = b
    · simp only [Memory.erase, hb, if_true] at h
      exact List.mem_cons_of_mem _ (ih (by rw [hb]; exact h))
    · simp only [Memory.erase, hb, if_false, List.mem_cons] at h
      rcases h with rfl | h
      · simp
      · exact List.mem_cons_of_mem _ (ih h)

theorem mem_of_mem_insert {a : Nat} {v : Word} {m : Memory} {c : Nat × Word}
    (h : c ∈ Memory.insert a v m) : c = (a, v) ∨ c ∈ m := by
  induction m with
  | nil => simpa [Memory.insert] using h
  | cons d m ih =>
    obtain ⟨b, w⟩ := d
    by_cases hb : a < b
    · simpa [Memory.insert, hb] using h
    · simp only [Memory.insert, hb, if_false, List.mem_cons] at h
      rcases h with rfl | h
      · simp
      · rcases ih h with h | h
        · exact Or.inl h
        · exact Or.inr (List.mem_cons_of_mem _ h)

theorem wf_erase (a : Nat) {m : Memory} (h : Memory.wf m = true) : Memory.wf (Memory.erase a m) = true := by
  induction m with
  | nil => exact h
  | cons c m ih =>
    obtain ⟨b, w⟩ := c
    obtain ⟨hw, hb, hm⟩ := (wf_cons b w m).1 h
    by_cases hx : a = b
    · simpa [Memory.erase, hx] using hx ▸ ih hm
    · simp only [Memory.erase, hx, if_false]
      exact (wf_cons b w _).2 ⟨hw, fun e he => hb e (mem_of_mem_erase he), ih hm⟩

theorem wf_insert {a : Nat} {v : Word} {m : Memory} (hv : v ≠ 0) (hu : Unlisted a m)
    (h : Memory.wf m = true) : Memory.wf (Memory.insert a v m) = true := by
  induction m with
  | nil => simpa [Memory.insert, Memory.wf] using hv
  | cons c m ih =>
    obtain ⟨b, w⟩ := c
    obtain ⟨hw, hb, hm⟩ := (wf_cons b w m).1 h
    by_cases hx : a < b
    · simp only [Memory.insert, hx, if_true]
      refine (wf_cons a v _).2 ⟨hv, ?_, h⟩
      intro e he
      rcases List.mem_cons.1 he with rfl | he
      · exact hx
      · exact lt_trans hx (hb e he)
    · simp only [Memory.insert, hx, if_false]
      have hne : b ≠ a := hu (b, w) (by simp)
      refine (wf_cons b w _).2 ⟨hw, ?_, ih (fun e he => hu e (by simp [he])) hm⟩
      intro e he
      rcases mem_of_mem_insert he with rfl | he
      · change b < a
        omega
      · exact hb e he

/-- A write keeps the canonical form. -/
theorem wf_write (a : Nat) (v : Word) {m : Memory} (h : Memory.wf m = true) :
    Memory.wf (Memory.write a v m) = true := by
  by_cases hv : v = 0
  · rw [Memory.write, if_pos hv]
    exact wf_erase a h
  · rw [Memory.write, if_neg hv]
    exact wf_insert hv (unlisted_erase a m) (wf_erase a h)

/-- Consecutive writes keep the canonical form. -/
theorem wf_writeAll (vs : List Word) (a : Nat) {m : Memory} (h : Memory.wf m = true) :
    Memory.wf (Memory.writeAll a vs m) = true := by
  induction vs generalizing a m with
  | nil => exact h
  | cons v vs ih => exact ih (a + 1) (wf_write a v h)

/-- A write below `n` keeps every listed address below `n`. -/
theorem bound_write {n a : Nat} (ha : a < n) (v : Word) {m : Memory} (h : ∀ c ∈ m, c.1 < n) :
    ∀ c ∈ Memory.write a v m, c.1 < n := by
  intro c hc
  by_cases hv : v = 0
  · rw [Memory.write, if_pos hv] at hc
    exact h c (mem_of_mem_erase hc)
  · rw [Memory.write, if_neg hv] at hc
    rcases mem_of_mem_insert hc with rfl | hc
    · exact ha
    · exact h c (mem_of_mem_erase hc)

/-- Consecutive writes below `n` keep every listed address below `n`. -/
theorem bound_writeAll {n : Nat} (vs : List Word) {a : Nat} (ha : a + vs.length ≤ n) {m : Memory}
    (h : ∀ c ∈ m, c.1 < n) : ∀ c ∈ Memory.writeAll a vs m, c.1 < n := by
  induction vs generalizing a m with
  | nil => exact h
  | cons v vs ih =>
    simp only [List.length_cons] at ha
    exact ih (by omega) (bound_write (by omega) v h)

end Sys2Proof.Machine
end

