-- ==== Sys2Proof/Laws/State.lean ====
section
/-! SUPPORT. One lemma per field and per update of State, each true by rfl, so that no proof unfolds an update. -/

namespace Sys2Proof.Machine

@[simp] theorem setMem_mem (m : Memory) (s : State) : (s.setMem m).mem = m := rfl
@[simp] theorem setMem_pc (m : Memory) (s : State) : (s.setMem m).pc = s.pc := rfl
@[simp] theorem setMem_rb (m : Memory) (s : State) : (s.setMem m).rb = s.rb := rfl
@[simp] theorem setMem_status (m : Memory) (s : State) : (s.setMem m).status = s.status := rfl
@[simp] theorem setMem_fcause (m : Memory) (s : State) : (s.setMem m).fcause = s.fcause := rfl
@[simp] theorem setMem_inq (m : Memory) (s : State) : (s.setMem m).inq = s.inq := rfl
@[simp] theorem setMem_outq (m : Memory) (s : State) : (s.setMem m).outq = s.outq := rfl
@[simp] theorem setMem_config (m : Memory) (s : State) : (s.setMem m).config = s.config := rfl
@[simp] theorem setMem_producerCalls (m : Memory) (s : State) : (s.setMem m).producerCalls = s.producerCalls := rfl
@[simp] theorem setMem_delivered (m : Memory) (s : State) : (s.setMem m).delivered = s.delivered := rfl
@[simp] theorem setMem_trace (m : Memory) (s : State) : (s.setMem m).trace = s.trace := rfl

@[simp] theorem setPc_mem (p : Word) (s : State) : (s.setPc p).mem = s.mem := rfl
@[simp] theorem setPc_pc (p : Word) (s : State) : (s.setPc p).pc = p := rfl
@[simp] theorem setPc_rb (p : Word) (s : State) : (s.setPc p).rb = s.rb := rfl
@[simp] theorem setPc_status (p : Word) (s : State) : (s.setPc p).status = s.status := rfl
@[simp] theorem setPc_fcause (p : Word) (s : State) : (s.setPc p).fcause = s.fcause := rfl
@[simp] theorem setPc_inq (p : Word) (s : State) : (s.setPc p).inq = s.inq := rfl
@[simp] theorem setPc_outq (p : Word) (s : State) : (s.setPc p).outq = s.outq := rfl
@[simp] theorem setPc_config (p : Word) (s : State) : (s.setPc p).config = s.config := rfl
@[simp] theorem setPc_producerCalls (p : Word) (s : State) : (s.setPc p).producerCalls = s.producerCalls := rfl
@[simp] theorem setPc_delivered (p : Word) (s : State) : (s.setPc p).delivered = s.delivered := rfl
@[simp] theorem setPc_trace (p : Word) (s : State) : (s.setPc p).trace = s.trace := rfl

@[simp] theorem setRb_mem (r : Word) (s : State) : (s.setRb r).mem = s.mem := rfl
@[simp] theorem setRb_pc (r : Word) (s : State) : (s.setRb r).pc = s.pc := rfl
@[simp] theorem setRb_rb (r : Word) (s : State) : (s.setRb r).rb = r := rfl
@[simp] theorem setRb_status (r : Word) (s : State) : (s.setRb r).status = s.status := rfl
@[simp] theorem setRb_fcause (r : Word) (s : State) : (s.setRb r).fcause = s.fcause := rfl
@[simp] theorem setRb_inq (r : Word) (s : State) : (s.setRb r).inq = s.inq := rfl
@[simp] theorem setRb_outq (r : Word) (s : State) : (s.setRb r).outq = s.outq := rfl
@[simp] theorem setRb_config (r : Word) (s : State) : (s.setRb r).config = s.config := rfl
@[simp] theorem setRb_producerCalls (r : Word) (s : State) : (s.setRb r).producerCalls = s.producerCalls := rfl
@[simp] theorem setRb_delivered (r : Word) (s : State) : (s.setRb r).delivered = s.delivered := rfl
@[simp] theorem setRb_trace (r : Word) (s : State) : (s.setRb r).trace = s.trace := rfl

@[simp] theorem setStatus_mem (x : Status) (s : State) : (s.setStatus x).mem = s.mem := rfl
@[simp] theorem setStatus_pc (x : Status) (s : State) : (s.setStatus x).pc = s.pc := rfl
@[simp] theorem setStatus_rb (x : Status) (s : State) : (s.setStatus x).rb = s.rb := rfl
@[simp] theorem setStatus_status (x : Status) (s : State) : (s.setStatus x).status = x := rfl
@[simp] theorem setStatus_fcause (x : Status) (s : State) : (s.setStatus x).fcause = s.fcause := rfl
@[simp] theorem setStatus_inq (x : Status) (s : State) : (s.setStatus x).inq = s.inq := rfl
@[simp] theorem setStatus_outq (x : Status) (s : State) : (s.setStatus x).outq = s.outq := rfl
@[simp] theorem setStatus_config (x : Status) (s : State) : (s.setStatus x).config = s.config := rfl
@[simp] theorem setStatus_producerCalls (x : Status) (s : State) : (s.setStatus x).producerCalls = s.producerCalls := rfl
@[simp] theorem setStatus_delivered (x : Status) (s : State) : (s.setStatus x).delivered = s.delivered := rfl
@[simp] theorem setStatus_trace (x : Status) (s : State) : (s.setStatus x).trace = s.trace := rfl

@[simp] theorem setFcause_mem (c : FCause) (s : State) : (s.setFcause c).mem = s.mem := rfl
@[simp] theorem setFcause_pc (c : FCause) (s : State) : (s.setFcause c).pc = s.pc := rfl
@[simp] theorem setFcause_rb (c : FCause) (s : State) : (s.setFcause c).rb = s.rb := rfl
@[simp] theorem setFcause_status (c : FCause) (s : State) : (s.setFcause c).status = s.status := rfl
@[simp] theorem setFcause_fcause (c : FCause) (s : State) : (s.setFcause c).fcause = c := rfl
@[simp] theorem setFcause_inq (c : FCause) (s : State) : (s.setFcause c).inq = s.inq := rfl
@[simp] theorem setFcause_outq (c : FCause) (s : State) : (s.setFcause c).outq = s.outq := rfl
@[simp] theorem setFcause_config (c : FCause) (s : State) : (s.setFcause c).config = s.config := rfl
@[simp] theorem setFcause_producerCalls (c : FCause) (s : State) : (s.setFcause c).producerCalls = s.producerCalls := rfl
@[simp] theorem setFcause_delivered (c : FCause) (s : State) : (s.setFcause c).delivered = s.delivered := rfl
@[simp] theorem setFcause_trace (c : FCause) (s : State) : (s.setFcause c).trace = s.trace := rfl

@[simp] theorem setInq_mem (q : List Word) (s : State) : (s.setInq q).mem = s.mem := rfl
@[simp] theorem setInq_pc (q : List Word) (s : State) : (s.setInq q).pc = s.pc := rfl
@[simp] theorem setInq_rb (q : List Word) (s : State) : (s.setInq q).rb = s.rb := rfl
@[simp] theorem setInq_status (q : List Word) (s : State) : (s.setInq q).status = s.status := rfl
@[simp] theorem setInq_fcause (q : List Word) (s : State) : (s.setInq q).fcause = s.fcause := rfl
@[simp] theorem setInq_inq (q : List Word) (s : State) : (s.setInq q).inq = q := rfl
@[simp] theorem setInq_outq (q : List Word) (s : State) : (s.setInq q).outq = s.outq := rfl
@[simp] theorem setInq_config (q : List Word) (s : State) : (s.setInq q).config = s.config := rfl
@[simp] theorem setInq_producerCalls (q : List Word) (s : State) : (s.setInq q).producerCalls = s.producerCalls := rfl
@[simp] theorem setInq_delivered (q : List Word) (s : State) : (s.setInq q).delivered = s.delivered := rfl
@[simp] theorem setInq_trace (q : List Word) (s : State) : (s.setInq q).trace = s.trace := rfl

@[simp] theorem setOutq_mem (q : List Word) (s : State) : (s.setOutq q).mem = s.mem := rfl
@[simp] theorem setOutq_pc (q : List Word) (s : State) : (s.setOutq q).pc = s.pc := rfl
@[simp] theorem setOutq_rb (q : List Word) (s : State) : (s.setOutq q).rb = s.rb := rfl
@[simp] theorem setOutq_status (q : List Word) (s : State) : (s.setOutq q).status = s.status := rfl
@[simp] theorem setOutq_fcause (q : List Word) (s : State) : (s.setOutq q).fcause = s.fcause := rfl
@[simp] theorem setOutq_inq (q : List Word) (s : State) : (s.setOutq q).inq = s.inq := rfl
@[simp] theorem setOutq_outq (q : List Word) (s : State) : (s.setOutq q).outq = q := rfl
@[simp] theorem setOutq_config (q : List Word) (s : State) : (s.setOutq q).config = s.config := rfl
@[simp] theorem setOutq_producerCalls (q : List Word) (s : State) : (s.setOutq q).producerCalls = s.producerCalls := rfl
@[simp] theorem setOutq_delivered (q : List Word) (s : State) : (s.setOutq q).delivered = s.delivered := rfl
@[simp] theorem setOutq_trace (q : List Word) (s : State) : (s.setOutq q).trace = s.trace := rfl

@[simp] theorem setConfig_mem (c : Config) (s : State) : (s.setConfig c).mem = s.mem := rfl
@[simp] theorem setConfig_pc (c : Config) (s : State) : (s.setConfig c).pc = s.pc := rfl
@[simp] theorem setConfig_rb (c : Config) (s : State) : (s.setConfig c).rb = s.rb := rfl
@[simp] theorem setConfig_status (c : Config) (s : State) : (s.setConfig c).status = s.status := rfl
@[simp] theorem setConfig_fcause (c : Config) (s : State) : (s.setConfig c).fcause = s.fcause := rfl
@[simp] theorem setConfig_inq (c : Config) (s : State) : (s.setConfig c).inq = s.inq := rfl
@[simp] theorem setConfig_outq (c : Config) (s : State) : (s.setConfig c).outq = s.outq := rfl
@[simp] theorem setConfig_config (c : Config) (s : State) : (s.setConfig c).config = c := rfl
@[simp] theorem setConfig_producerCalls (c : Config) (s : State) : (s.setConfig c).producerCalls = s.producerCalls := rfl
@[simp] theorem setConfig_delivered (c : Config) (s : State) : (s.setConfig c).delivered = s.delivered := rfl
@[simp] theorem setConfig_trace (c : Config) (s : State) : (s.setConfig c).trace = s.trace := rfl

@[simp] theorem setProducerCalls_mem (n : Nat) (s : State) : (s.setProducerCalls n).mem = s.mem := rfl
@[simp] theorem setProducerCalls_pc (n : Nat) (s : State) : (s.setProducerCalls n).pc = s.pc := rfl
@[simp] theorem setProducerCalls_rb (n : Nat) (s : State) : (s.setProducerCalls n).rb = s.rb := rfl
@[simp] theorem setProducerCalls_status (n : Nat) (s : State) : (s.setProducerCalls n).status = s.status := rfl
@[simp] theorem setProducerCalls_fcause (n : Nat) (s : State) : (s.setProducerCalls n).fcause = s.fcause := rfl
@[simp] theorem setProducerCalls_inq (n : Nat) (s : State) : (s.setProducerCalls n).inq = s.inq := rfl
@[simp] theorem setProducerCalls_outq (n : Nat) (s : State) : (s.setProducerCalls n).outq = s.outq := rfl
@[simp] theorem setProducerCalls_config (n : Nat) (s : State) : (s.setProducerCalls n).config = s.config := rfl
@[simp] theorem setProducerCalls_producerCalls (n : Nat) (s : State) : (s.setProducerCalls n).producerCalls = n := rfl
@[simp] theorem setProducerCalls_delivered (n : Nat) (s : State) : (s.setProducerCalls n).delivered = s.delivered := rfl
@[simp] theorem setProducerCalls_trace (n : Nat) (s : State) : (s.setProducerCalls n).trace = s.trace := rfl

@[simp] theorem setDelivered_mem (q : List Word) (s : State) : (s.setDelivered q).mem = s.mem := rfl
@[simp] theorem setDelivered_pc (q : List Word) (s : State) : (s.setDelivered q).pc = s.pc := rfl
@[simp] theorem setDelivered_rb (q : List Word) (s : State) : (s.setDelivered q).rb = s.rb := rfl
@[simp] theorem setDelivered_status (q : List Word) (s : State) : (s.setDelivered q).status = s.status := rfl
@[simp] theorem setDelivered_fcause (q : List Word) (s : State) : (s.setDelivered q).fcause = s.fcause := rfl
@[simp] theorem setDelivered_inq (q : List Word) (s : State) : (s.setDelivered q).inq = s.inq := rfl
@[simp] theorem setDelivered_outq (q : List Word) (s : State) : (s.setDelivered q).outq = s.outq := rfl
@[simp] theorem setDelivered_config (q : List Word) (s : State) : (s.setDelivered q).config = s.config := rfl
@[simp] theorem setDelivered_producerCalls (q : List Word) (s : State) : (s.setDelivered q).producerCalls = s.producerCalls := rfl
@[simp] theorem setDelivered_delivered (q : List Word) (s : State) : (s.setDelivered q).delivered = q := rfl
@[simp] theorem setDelivered_trace (q : List Word) (s : State) : (s.setDelivered q).trace = s.trace := rfl

@[simp] theorem setTrace_mem (t : List TraceEvent) (s : State) : (s.setTrace t).mem = s.mem := rfl
@[simp] theorem setTrace_pc (t : List TraceEvent) (s : State) : (s.setTrace t).pc = s.pc := rfl
@[simp] theorem setTrace_rb (t : List TraceEvent) (s : State) : (s.setTrace t).rb = s.rb := rfl
@[simp] theorem setTrace_status (t : List TraceEvent) (s : State) : (s.setTrace t).status = s.status := rfl
@[simp] theorem setTrace_fcause (t : List TraceEvent) (s : State) : (s.setTrace t).fcause = s.fcause := rfl
@[simp] theorem setTrace_inq (t : List TraceEvent) (s : State) : (s.setTrace t).inq = s.inq := rfl
@[simp] theorem setTrace_outq (t : List TraceEvent) (s : State) : (s.setTrace t).outq = s.outq := rfl
@[simp] theorem setTrace_config (t : List TraceEvent) (s : State) : (s.setTrace t).config = s.config := rfl
@[simp] theorem setTrace_producerCalls (t : List TraceEvent) (s : State) : (s.setTrace t).producerCalls = s.producerCalls := rfl
@[simp] theorem setTrace_delivered (t : List TraceEvent) (s : State) : (s.setTrace t).delivered = s.delivered := rfl
@[simp] theorem setTrace_trace (t : List TraceEvent) (s : State) : (s.setTrace t).trace = t := rfl

/-! `writeCell` changes memory only. -/

@[simp] theorem writeCell_mem (a : Nat) (v : Word) (s : State) : (s.writeCell a v).mem = Memory.write a v s.mem := rfl
@[simp] theorem writeCell_pc (a : Nat) (v : Word) (s : State) : (s.writeCell a v).pc = s.pc := rfl
@[simp] theorem writeCell_rb (a : Nat) (v : Word) (s : State) : (s.writeCell a v).rb = s.rb := rfl
@[simp] theorem writeCell_status (a : Nat) (v : Word) (s : State) : (s.writeCell a v).status = s.status := rfl
@[simp] theorem writeCell_fcause (a : Nat) (v : Word) (s : State) : (s.writeCell a v).fcause = s.fcause := rfl
@[simp] theorem writeCell_inq (a : Nat) (v : Word) (s : State) : (s.writeCell a v).inq = s.inq := rfl
@[simp] theorem writeCell_outq (a : Nat) (v : Word) (s : State) : (s.writeCell a v).outq = s.outq := rfl
@[simp] theorem writeCell_config (a : Nat) (v : Word) (s : State) : (s.writeCell a v).config = s.config := rfl
@[simp] theorem writeCell_producerCalls (a : Nat) (v : Word) (s : State) : (s.writeCell a v).producerCalls = s.producerCalls := rfl
@[simp] theorem writeCell_delivered (a : Nat) (v : Word) (s : State) : (s.writeCell a v).delivered = s.delivered := rfl
@[simp] theorem writeCell_trace (a : Nat) (v : Word) (s : State) : (s.writeCell a v).trace = s.trace := rfl

/-! `raise` (60_exceptions.md R121) writes FCAUSE and STATUS, and the trace port its line. -/

@[simp] theorem raise_mem (c : FCause) (e : FaultInfo) (s : State) : (raise c e s).mem = s.mem := rfl
@[simp] theorem raise_pc (c : FCause) (e : FaultInfo) (s : State) : (raise c e s).pc = s.pc := rfl
@[simp] theorem raise_rb (c : FCause) (e : FaultInfo) (s : State) : (raise c e s).rb = s.rb := rfl
@[simp] theorem raise_status (c : FCause) (e : FaultInfo) (s : State) : (raise c e s).status = .halted := rfl
@[simp] theorem raise_fcause (c : FCause) (e : FaultInfo) (s : State) : (raise c e s).fcause = c := rfl
@[simp] theorem raise_inq (c : FCause) (e : FaultInfo) (s : State) : (raise c e s).inq = s.inq := rfl
@[simp] theorem raise_outq (c : FCause) (e : FaultInfo) (s : State) : (raise c e s).outq = s.outq := rfl
@[simp] theorem raise_config (c : FCause) (e : FaultInfo) (s : State) : (raise c e s).config = s.config := rfl
@[simp] theorem raise_producerCalls (c : FCause) (e : FaultInfo) (s : State) : (raise c e s).producerCalls = s.producerCalls := rfl
@[simp] theorem raise_delivered (c : FCause) (e : FaultInfo) (s : State) : (raise c e s).delivered = s.delivered := rfl
@[simp] theorem raise_trace (c : FCause) (e : FaultInfo) (s : State) : (raise c e s).trace = s.trace ++ faultLine c e s := rfl

/-! `reset()` (70_reset_and_hazards.md R152). -/

@[simp] theorem resetCore_mem (s : State) : s.resetCore.mem = [] := rfl
@[simp] theorem resetCore_pc (s : State) : s.resetCore.pc = 0 := rfl
@[simp] theorem resetCore_rb (s : State) : s.resetCore.rb = 0 := rfl
@[simp] theorem resetCore_status (s : State) : s.resetCore.status = .running := rfl
@[simp] theorem resetCore_fcause (s : State) : s.resetCore.fcause = .none := rfl
@[simp] theorem resetCore_inq (s : State) : s.resetCore.inq = [] := rfl
@[simp] theorem resetCore_outq (s : State) : s.resetCore.outq = [] := rfl
@[simp] theorem resetCore_config (s : State) : s.resetCore.config = s.config := rfl
@[simp] theorem resetCore_producerCalls (s : State) : s.resetCore.producerCalls = s.producerCalls := rfl
@[simp] theorem resetCore_delivered (s : State) : s.resetCore.delivered = s.delivered := rfl
@[simp] theorem resetCore_trace (s : State) : s.resetCore.trace = s.trace := rfl

end Sys2Proof.Machine
end

