-- ==== Sys2Proof/Laws/Ops.lean ====
section
/-! SUPPORT. What each shared operation can do, said once: the bounds check and the operand forms do not depend on the
registers they do not read, and `fetch`, `readParam`, `writeParam`, `storeResult`, `jumpWhen` and `finish` have one case
lemma each. -/

namespace Sys2Proof.Machine

/-! ### Independence -/

@[simp] theorem validAddr_setMem (x : Memory) (s : State) (a : Word) :
    validAddr (s.setMem x) a = validAddr s a := rfl
@[simp] theorem checkAddr_setMem (x : Memory) (s : State) (a : Word) :
    checkAddr (s.setMem x) a = checkAddr s a := rfl
@[simp] theorem destination_setMem (x : Memory) (s : State) (m : Mode) (a : Word) :
    destination (s.setMem x) m a = destination s m a := rfl
@[simp] theorem validAddr_setPc (x : Word) (s : State) (a : Word) :
    validAddr (s.setPc x) a = validAddr s a := rfl
@[simp] theorem checkAddr_setPc (x : Word) (s : State) (a : Word) :
    checkAddr (s.setPc x) a = checkAddr s a := rfl
@[simp] theorem memRead_setPc (x : Word) (s : State) (a : Word) :
    memRead (s.setPc x) a = memRead s a := rfl
@[simp] theorem sourceValue_setPc (x : Word) (s : State) (m : Mode) (a : Word) :
    sourceValue (s.setPc x) m a = sourceValue s m a := rfl
@[simp] theorem destination_setPc (x : Word) (s : State) (m : Mode) (a : Word) :
    destination (s.setPc x) m a = destination s m a := rfl
@[simp] theorem validAddr_setRb (x : Word) (s : State) (a : Word) :
    validAddr (s.setRb x) a = validAddr s a := rfl
@[simp] theorem checkAddr_setRb (x : Word) (s : State) (a : Word) :
    checkAddr (s.setRb x) a = checkAddr s a := rfl
@[simp] theorem memRead_setRb (x : Word) (s : State) (a : Word) :
    memRead (s.setRb x) a = memRead s a := rfl
@[simp] theorem validAddr_setStatus (x : Status) (s : State) (a : Word) :
    validAddr (s.setStatus x) a = validAddr s a := rfl
@[simp] theorem checkAddr_setStatus (x : Status) (s : State) (a : Word) :
    checkAddr (s.setStatus x) a = checkAddr s a := rfl
@[simp] theorem memRead_setStatus (x : Status) (s : State) (a : Word) :
    memRead (s.setStatus x) a = memRead s a := rfl
@[simp] theorem sourceValue_setStatus (x : Status) (s : State) (m : Mode) (a : Word) :
    sourceValue (s.setStatus x) m a = sourceValue s m a := rfl
@[simp] theorem destination_setStatus (x : Status) (s : State) (m : Mode) (a : Word) :
    destination (s.setStatus x) m a = destination s m a := rfl
@[simp] theorem validAddr_setFcause (x : FCause) (s : State) (a : Word) :
    validAddr (s.setFcause x) a = validAddr s a := rfl
@[simp] theorem checkAddr_setFcause (x : FCause) (s : State) (a : Word) :
    checkAddr (s.setFcause x) a = checkAddr s a := rfl
@[simp] theorem memRead_setFcause (x : FCause) (s : State) (a : Word) :
    memRead (s.setFcause x) a = memRead s a := rfl
@[simp] theorem sourceValue_setFcause (x : FCause) (s : State) (m : Mode) (a : Word) :
    sourceValue (s.setFcause x) m a = sourceValue s m a := rfl
@[simp] theorem destination_setFcause (x : FCause) (s : State) (m : Mode) (a : Word) :
    destination (s.setFcause x) m a = destination s m a := rfl
@[simp] theorem validAddr_setInq (x : List Word) (s : State) (a : Word) :
    validAddr (s.setInq x) a = validAddr s a := rfl
@[simp] theorem checkAddr_setInq (x : List Word) (s : State) (a : Word) :
    checkAddr (s.setInq x) a = checkAddr s a := rfl
@[simp] theorem memRead_setInq (x : List Word) (s : State) (a : Word) :
    memRead (s.setInq x) a = memRead s a := rfl
@[simp] theorem sourceValue_setInq (x : List Word) (s : State) (m : Mode) (a : Word) :
    sourceValue (s.setInq x) m a = sourceValue s m a := rfl
@[simp] theorem destination_setInq (x : List Word) (s : State) (m : Mode) (a : Word) :
    destination (s.setInq x) m a = destination s m a := rfl
@[simp] theorem validAddr_setOutq (x : List Word) (s : State) (a : Word) :
    validAddr (s.setOutq x) a = validAddr s a := rfl
@[simp] theorem checkAddr_setOutq (x : List Word) (s : State) (a : Word) :
    checkAddr (s.setOutq x) a = checkAddr s a := rfl
@[simp] theorem memRead_setOutq (x : List Word) (s : State) (a : Word) :
    memRead (s.setOutq x) a = memRead s a := rfl
@[simp] theorem sourceValue_setOutq (x : List Word) (s : State) (m : Mode) (a : Word) :
    sourceValue (s.setOutq x) m a = sourceValue s m a := rfl
@[simp] theorem destination_setOutq (x : List Word) (s : State) (m : Mode) (a : Word) :
    destination (s.setOutq x) m a = destination s m a := rfl
@[simp] theorem validAddr_setProducerCalls (x : Nat) (s : State) (a : Word) :
    validAddr (s.setProducerCalls x) a = validAddr s a := rfl
@[simp] theorem checkAddr_setProducerCalls (x : Nat) (s : State) (a : Word) :
    checkAddr (s.setProducerCalls x) a = checkAddr s a := rfl
@[simp] theorem memRead_setProducerCalls (x : Nat) (s : State) (a : Word) :
    memRead (s.setProducerCalls x) a = memRead s a := rfl
@[simp] theorem sourceValue_setProducerCalls (x : Nat) (s : State) (m : Mode) (a : Word) :
    sourceValue (s.setProducerCalls x) m a = sourceValue s m a := rfl
@[simp] theorem destination_setProducerCalls (x : Nat) (s : State) (m : Mode) (a : Word) :
    destination (s.setProducerCalls x) m a = destination s m a := rfl
@[simp] theorem validAddr_setDelivered (x : List Word) (s : State) (a : Word) :
    validAddr (s.setDelivered x) a = validAddr s a := rfl
@[simp] theorem checkAddr_setDelivered (x : List Word) (s : State) (a : Word) :
    checkAddr (s.setDelivered x) a = checkAddr s a := rfl
@[simp] theorem memRead_setDelivered (x : List Word) (s : State) (a : Word) :
    memRead (s.setDelivered x) a = memRead s a := rfl
@[simp] theorem sourceValue_setDelivered (x : List Word) (s : State) (m : Mode) (a : Word) :
    sourceValue (s.setDelivered x) m a = sourceValue s m a := rfl
@[simp] theorem destination_setDelivered (x : List Word) (s : State) (m : Mode) (a : Word) :
    destination (s.setDelivered x) m a = destination s m a := rfl
@[simp] theorem validAddr_setTrace (x : List TraceEvent) (s : State) (a : Word) :
    validAddr (s.setTrace x) a = validAddr s a := rfl
@[simp] theorem checkAddr_setTrace (x : List TraceEvent) (s : State) (a : Word) :
    checkAddr (s.setTrace x) a = checkAddr s a := rfl
@[simp] theorem memRead_setTrace (x : List TraceEvent) (s : State) (a : Word) :
    memRead (s.setTrace x) a = memRead s a := rfl
@[simp] theorem sourceValue_setTrace (x : List TraceEvent) (s : State) (m : Mode) (a : Word) :
    sourceValue (s.setTrace x) m a = sourceValue s m a := rfl
@[simp] theorem destination_setTrace (x : List TraceEvent) (s : State) (m : Mode) (a : Word) :
    destination (s.setTrace x) m a = destination s m a := rfl

/-! The same for the statements' vocabulary. -/

@[simp] theorem paramCell_setMem (x : Memory) (s : State) (m : Mode) (o : Word) :
    paramCell (s.setMem x) m o = paramCell s m o := rfl
@[simp] theorem paramFault_setMem (x : Memory) (s : State) (m : Mode) (k : ParamKind) (o : Word) :
    paramFault (s.setMem x) m k o = paramFault s m k o := rfl
@[simp] theorem cellAt_setPc (x : Word) (s : State) (a : Word) :
    cellAt (s.setPc x) a = cellAt s a := rfl
@[simp] theorem paramSource_setPc (x : Word) (s : State) (m : Mode) (o : Word) :
    paramSource (s.setPc x) m o = paramSource s m o := rfl
@[simp] theorem paramCell_setPc (x : Word) (s : State) (m : Mode) (o : Word) :
    paramCell (s.setPc x) m o = paramCell s m o := rfl
@[simp] theorem paramFault_setPc (x : Word) (s : State) (m : Mode) (k : ParamKind) (o : Word) :
    paramFault (s.setPc x) m k o = paramFault s m k o := rfl
@[simp] theorem cellAt_setRb (x : Word) (s : State) (a : Word) :
    cellAt (s.setRb x) a = cellAt s a := rfl
@[simp] theorem cellAt_setStatus (x : Status) (s : State) (a : Word) :
    cellAt (s.setStatus x) a = cellAt s a := rfl
@[simp] theorem paramSource_setStatus (x : Status) (s : State) (m : Mode) (o : Word) :
    paramSource (s.setStatus x) m o = paramSource s m o := rfl
@[simp] theorem paramCell_setStatus (x : Status) (s : State) (m : Mode) (o : Word) :
    paramCell (s.setStatus x) m o = paramCell s m o := rfl
@[simp] theorem paramFault_setStatus (x : Status) (s : State) (m : Mode) (k : ParamKind) (o : Word) :
    paramFault (s.setStatus x) m k o = paramFault s m k o := rfl
@[simp] theorem cellAt_setFcause (x : FCause) (s : State) (a : Word) :
    cellAt (s.setFcause x) a = cellAt s a := rfl
@[simp] theorem paramSource_setFcause (x : FCause) (s : State) (m : Mode) (o : Word) :
    paramSource (s.setFcause x) m o = paramSource s m o := rfl
@[simp] theorem paramCell_setFcause (x : FCause) (s : State) (m : Mode) (o : Word) :
    paramCell (s.setFcause x) m o = paramCell s m o := rfl
@[simp] theorem paramFault_setFcause (x : FCause) (s : State) (m : Mode) (k : ParamKind) (o : Word) :
    paramFault (s.setFcause x) m k o = paramFault s m k o := rfl
@[simp] theorem cellAt_setInq (x : List Word) (s : State) (a : Word) :
    cellAt (s.setInq x) a = cellAt s a := rfl
@[simp] theorem paramSource_setInq (x : List Word) (s : State) (m : Mode) (o : Word) :
    paramSource (s.setInq x) m o = paramSource s m o := rfl
@[simp] theorem paramCell_setInq (x : List Word) (s : State) (m : Mode) (o : Word) :
    paramCell (s.setInq x) m o = paramCell s m o := rfl
@[simp] theorem paramFault_setInq (x : List Word) (s : State) (m : Mode) (k : ParamKind) (o : Word) :
    paramFault (s.setInq x) m k o = paramFault s m k o := rfl
@[simp] theorem cellAt_setOutq (x : List Word) (s : State) (a : Word) :
    cellAt (s.setOutq x) a = cellAt s a := rfl
@[simp] theorem paramSource_setOutq (x : List Word) (s : State) (m : Mode) (o : Word) :
    paramSource (s.setOutq x) m o = paramSource s m o := rfl
@[simp] theorem paramCell_setOutq (x : List Word) (s : State) (m : Mode) (o : Word) :
    paramCell (s.setOutq x) m o = paramCell s m o := rfl
@[simp] theorem paramFault_setOutq (x : List Word) (s : State) (m : Mode) (k : ParamKind) (o : Word) :
    paramFault (s.setOutq x) m k o = paramFault s m k o := rfl
@[simp] theorem cellAt_setProducerCalls (x : Nat) (s : State) (a : Word) :
    cellAt (s.setProducerCalls x) a = cellAt s a := rfl
@[simp] theorem paramSource_setProducerCalls (x : Nat) (s : State) (m : Mode) (o : Word) :
    paramSource (s.setProducerCalls x) m o = paramSource s m o := rfl
@[simp] theorem paramCell_setProducerCalls (x : Nat) (s : State) (m : Mode) (o : Word) :
    paramCell (s.setProducerCalls x) m o = paramCell s m o := rfl
@[simp] theorem paramFault_setProducerCalls (x : Nat) (s : State) (m : Mode) (k : ParamKind) (o : Word) :
    paramFault (s.setProducerCalls x) m k o = paramFault s m k o := rfl
@[simp] theorem cellAt_setDelivered (x : List Word) (s : State) (a : Word) :
    cellAt (s.setDelivered x) a = cellAt s a := rfl
@[simp] theorem paramSource_setDelivered (x : List Word) (s : State) (m : Mode) (o : Word) :
    paramSource (s.setDelivered x) m o = paramSource s m o := rfl
@[simp] theorem paramCell_setDelivered (x : List Word) (s : State) (m : Mode) (o : Word) :
    paramCell (s.setDelivered x) m o = paramCell s m o := rfl
@[simp] theorem paramFault_setDelivered (x : List Word) (s : State) (m : Mode) (k : ParamKind) (o : Word) :
    paramFault (s.setDelivered x) m k o = paramFault s m k o := rfl
@[simp] theorem cellAt_setTrace (x : List TraceEvent) (s : State) (a : Word) :
    cellAt (s.setTrace x) a = cellAt s a := rfl
@[simp] theorem paramSource_setTrace (x : List TraceEvent) (s : State) (m : Mode) (o : Word) :
    paramSource (s.setTrace x) m o = paramSource s m o := rfl
@[simp] theorem paramCell_setTrace (x : List TraceEvent) (s : State) (m : Mode) (o : Word) :
    paramCell (s.setTrace x) m o = paramCell s m o := rfl
@[simp] theorem paramFault_setTrace (x : List TraceEvent) (s : State) (m : Mode) (k : ParamKind) (o : Word) :
    paramFault (s.setTrace x) m k o = paramFault s m k o := rfl

/-! ### The bounds check (20_memory.md R32) -/

theorem validAddr_iff (s : State) (a : Word) :
    validAddr s a = true ↔ 0 ≤ a.toInt ∧ a.toInt < (s.config.memCells : Int) := by
  simp [validAddr]

/-- The two outcomes of the check. -/
theorem checkAddr_cases (s : State) (a : Word) :
    (validAddr s a = true ∧ checkAddr s a = .ok a.toNat) ∨
      (validAddr s a = false ∧ checkAddr s a = .error (.address a)) := by
  cases h : validAddr s a <;> simp [checkAddr, h]

/-- A valid address is a non-negative Word, so the cell is below MEM_CELLS. -/
theorem checkAddr_lt {s : State} {a : Word} {n : Nat} (h : checkAddr s a = .ok n) :
    n = a.toNat ∧ n < s.config.memCells := by
  rcases checkAddr_cases s a with ⟨hv, hc⟩ | ⟨_, hc⟩
  · rw [hc] at h
    obtain rfl : a.toNat = n := by simpa using h
    obtain ⟨h0, h1⟩ := (validAddr_iff s a).1 hv
    refine ⟨rfl, ?_⟩
    rw [BitVec.toInt_eq_toNat_cond] at h0 h1
    split at h0 <;> split at h1 <;> omega
  · rw [hc] at h
    cases h

theorem memRead_ok {s : State} {a : Word} {v : Word} (h : memRead s a = .ok v) :
    validAddr s a = true ∧ v = Memory.read a.toNat s.mem := by
  rcases checkAddr_cases s a with ⟨hv, hc⟩ | ⟨_, hc⟩
  · refine ⟨hv, ?_⟩
    simpa [memRead, hc, eq_comm] using h
  · simp [memRead, hc] at h

theorem memRead_error {s : State} {a : Word} {e : FaultInfo} (h : memRead s a = .error e) :
    validAddr s a = false ∧ e = .address a := by
  rcases checkAddr_cases s a with ⟨_, hc⟩ | ⟨hv, hc⟩
  · simp [memRead, hc] at h
  · refine ⟨hv, ?_⟩
    simpa [memRead, hc, eq_comm] using h

/-- A destination is a cell of the array. -/
theorem destination_lt {s : State} {m : Mode} {a : Word} {d : Nat} (h : destination s m a = .ok d) :
    d < s.config.memCells := by
  cases m with
  | position => exact (checkAddr_lt h).2
  | immediate => cases h
  | relative => exact (checkAddr_lt h).2
  | reserved k => cases h

/-! ### The meanings' functions give what the statements spell out -/

theorem checkAddr_cases' (s : State) (a : Word) :
    (validCell s a ∧ checkAddr s a = .ok a.toNat) ∨ (¬ validCell s a ∧ checkAddr s a = .error (.address a)) := by
  rcases checkAddr_cases s a with ⟨h, e⟩ | ⟨h, e⟩
  · exact Or.inl ⟨(validAddr_iff s a).1 h, e⟩
  · exact Or.inr ⟨fun hv => (by rw [(validAddr_iff s a).2 hv] at h; cases h), e⟩

/-- R12: everything `MemRead` can answer. -/
theorem memRead_cases (s : State) (a : Word) :
    (∃ v, cellAt s a = some v ∧ memRead s a = .ok v) ∨ (cellAt s a = none ∧ memRead s a = .error (.address a)) := by
  rcases checkAddr_cases' s a with ⟨h, e⟩ | ⟨h, e⟩
  · exact Or.inl ⟨_, if_pos h, by rw [memRead, e]⟩
  · exact Or.inr ⟨if_neg h, by rw [memRead, e]⟩

theorem cellAt_eq_some {s : State} {a v : Word} :
    cellAt s a = some v ↔ validCell s a ∧ Memory.read a.toNat s.mem = v := by
  unfold cellAt
  split
  · rename_i h
    rw [Option.some.injEq]
    exact ⟨fun e => ⟨h, e⟩, fun e => e.2⟩
  · rename_i h
    exact ⟨fun e => (by cases e), fun e => absurd e.1 h⟩

theorem cellAt_eq_none {s : State} {a : Word} : cellAt s a = none ↔ ¬ validCell s a := by
  unfold cellAt
  split <;> simp_all

theorem memRead_eq_ok {s : State} {a v : Word} : memRead s a = .ok v ↔ cellAt s a = some v := by
  rcases memRead_cases s a with ⟨w, h, e⟩ | ⟨h, e⟩ <;> rw [h, e] <;> simp

/-- R68: everything a source parameter can give. -/
theorem sourceValue_cases (s : State) (m : Mode) (o : Word) :
    (∃ v, paramSource s m o = some v ∧ paramFault s m .source o = none ∧ sourceValue s m o = .ok v) ∨
      (∃ e, paramSource s m o = none ∧ paramFault s m .source o = some e ∧ sourceValue s m o = .error e) := by
  have key : ∀ a : Word, (∃ v, cellAt s a = some v ∧
      (if validCell s a then none else some (FaultInfo.address a)) = none ∧ memRead s a = .ok v) ∨
      (∃ e, cellAt s a = none ∧ (if validCell s a then none else some (FaultInfo.address a)) = some e ∧
        memRead s a = .error e) := by
    intro a
    rcases memRead_cases s a with ⟨v, h, e⟩ | ⟨h, e⟩
    · exact Or.inl ⟨v, h, if_pos (cellAt_eq_some.1 h).1, e⟩
    · exact Or.inr ⟨_, h, if_neg (cellAt_eq_none.1 h), e⟩
  cases m with
  | position => exact key o
  | immediate => exact Or.inl ⟨o, rfl, rfl, rfl⟩
  | relative => exact key _
  | reserved d => exact Or.inr ⟨_, rfl, rfl, rfl⟩

/-- R69: everything a destination parameter can name. -/
theorem destination_cases (s : State) (m : Mode) (o : Word) :
    (∃ d, paramCell s m o = some d ∧ paramFault s m .dest o = none ∧ destination s m o = .ok d) ∨
      (∃ e, paramCell s m o = none ∧ paramFault s m .dest o = some e ∧ destination s m o = .error e) := by
  have key : ∀ a : Word, (∃ d, (if validCell s a then some a.toNat else none) = some d ∧
      (if validCell s a then none else some (FaultInfo.address a)) = none ∧ checkAddr s a = .ok d) ∨
      (∃ e, (if validCell s a then some a.toNat else none) = none ∧
        (if validCell s a then none else some (FaultInfo.address a)) = some e ∧ checkAddr s a = .error e) := by
    intro a
    rcases checkAddr_cases' s a with ⟨h, e⟩ | ⟨h, e⟩
    · exact Or.inl ⟨_, if_pos h, if_pos h, e⟩
    · exact Or.inr ⟨_, if_neg h, if_neg h, e⟩
  cases m with
  | position => exact key o
  | immediate => exact Or.inr ⟨_, rfl, rfl, rfl⟩
  | relative => exact key _
  | reserved d => exact Or.inr ⟨_, rfl, rfl, rfl⟩

theorem destination_eq_ok {s : State} {m : Mode} {o : Word} {d : Nat} :
    destination s m o = .ok d ↔ paramCell s m o = some d := by
  rcases destination_cases s m o with ⟨x, h, _, e⟩ | ⟨x, h, _, e⟩ <;> rw [h, e] <;> simp

theorem paramSource_none_of_fault {s : State} {m : Mode} {o : Word} {e : FaultInfo}
    (h : paramFault s m .source o = some e) : paramSource s m o = none := by
  rcases sourceValue_cases s m o with ⟨_, _, h', _⟩ | ⟨_, h', _, _⟩
  · rw [h] at h'; cases h'
  · exact h'

theorem paramFault_none_of_source {s : State} {m : Mode} {o v : Word} (h : paramSource s m o = some v) :
    paramFault s m .source o = none := by
  rcases sourceValue_cases s m o with ⟨_, _, h', _⟩ | ⟨_, h', _, _⟩
  · exact h'
  · rw [h] at h'; cases h'

theorem paramFault_none_of_cell {s : State} {m : Mode} {o : Word} {d : Nat} (h : paramCell s m o = some d) :
    paramFault s m .dest o = none := by
  rcases destination_cases s m o with ⟨_, _, h', _⟩ | ⟨_, h', _, _⟩
  · exact h'
  · rw [h] at h'; cases h'

theorem paramCell_none_of_fault {s : State} {m : Mode} {o : Word} {e : FaultInfo}
    (h : paramFault s m .dest o = some e) : paramCell s m o = none := by
  rcases destination_cases s m o with ⟨_, _, h', _⟩ | ⟨_, h', _, _⟩
  · rw [h] at h'; cases h'
  · exact h'

/-- 60_exceptions.md R119 (b) to (e), the causes spelled out. -/
theorem paramFault_isSome_iff (s : State) (m : Mode) (k : ParamKind) (o : Word) :
    (paramFault s m k o).isSome = true ↔
      (m = .position ∧ ¬ validCell s o) ∨ (m = .relative ∧ ¬ validCell s (wrap (s.rb.toInt + o.toInt))) ∨
        (m = .immediate ∧ k = .dest) ∨ ∃ d, m = .reserved d := by
  cases m <;> cases k <;> simp [paramFault]

/-- R124: a parameter list has a first fault exactly when some operand cannot be fetched or some parameter faults. -/
theorem firstFault_isSome_iff (s : State) (ps : List (Mode × ParamKind)) : ∀ p : Word,
    (firstFault s ps p).isSome = true ↔ ∃ k m kind, ps[k]? = some (m, kind) ∧
      (cellAt s (p + BitVec.ofNat 64 k) = none ∨
        (paramFault s m kind (Memory.read (p + BitVec.ofNat 64 k).toNat s.mem)).isSome = true) := by
  induction ps with
  | nil => simp [firstFault]
  | cons c ps ih =>
    obtain ⟨m, kind⟩ := c
    intro p
    have hp : p + BitVec.ofNat 64 0 = p := by simp
    have hs : ∀ k, p + 1 + BitVec.ofNat 64 k = p + BitVec.ofNat 64 (k + 1) := fun k => by bv_omega
    cases hc : cellAt s p with
    | none => exact ⟨fun _ => ⟨0, m, kind, rfl, .inl (by rwa [hp])⟩, fun _ => by simp [firstFault, hc]⟩
    | some o =>
      have ho := (cellAt_eq_some.1 hc).2
      cases hf : paramFault s m kind o with
      | some e =>
        exact ⟨fun _ => ⟨0, m, kind, rfl, .inr (by rw [hp, ho, hf]; rfl)⟩, fun _ => by simp [firstFault, hc, hf]⟩
      | none =>
        simp only [firstFault, hc, hf]
        rw [ih]
        constructor
        · rintro ⟨k, m', kind', h, h'⟩
          exact ⟨k + 1, m', kind', by simpa using h, by rwa [← hs]⟩
        · rintro ⟨_ | k, m', kind', h, h'⟩
          · simp only [List.getElem?_cons_zero, Option.some.injEq, Prod.mk.injEq] at h
            obtain ⟨rfl, rfl⟩ := h
            simp [hp, ho, hc, hf] at h'
          · exact ⟨k, m', kind', by simpa using h, by rwa [hs]⟩

/-! ### Sub-operations -/

@[simp] theorem bind_ok {α β : Type} (a : α) (s : State) (f : α → State → Sub β) :
    (Sub.ok a s).bind f = f a s := rfl
@[simp] theorem bind_raised {α β : Type} (s : State) (f : α → State → Sub β) :
    (Sub.raised s : Sub α).bind f = .raised s := rfl
@[simp] theorem finish_ok (u : Unit) (s : State) : finish (.ok u s) = .next (s.setStatus .running) := rfl
@[simp] theorem finish_raised (s : State) : finish (.raised s) = .next s := rfl

theorem fetch_of_ok {s : State} {v : Word} (h : memRead s s.pc = .ok v) :
    fetch s = .ok v (s.setPc (s.pc + 1)) := by
  simp [fetch, h]

theorem fetch_of_error {s : State} {e : FaultInfo} (h : memRead s s.pc = .error e) :
    fetch s = .raised (raise .addressFault e s) := by
  simp [fetch, h]

/-- R64: everything `Fetch()` can do. -/
theorem fetch_cases (s : State) :
    (∃ v, cellAt s s.pc = some v ∧ fetch s = .ok v (s.setPc (s.pc + 1))) ∨
      (cellAt s s.pc = none ∧ fetch s = .raised (raise .addressFault (.address s.pc) s)) := by
  rcases memRead_cases s s.pc with ⟨v, h, e⟩ | ⟨h, e⟩
  · exact Or.inl ⟨v, h, fetch_of_ok e⟩
  · exact Or.inr ⟨h, fetch_of_error e⟩

@[simp] theorem setPc_self (s : State) : s.setPc s.pc = s := rfl
@[simp] theorem setPc_setPc (p q : Word) (s : State) : (s.setPc q).setPc p = s.setPc p := rfl

theorem firstFault_setPc (q : Word) (s : State) (ps : List (Mode × ParamKind)) (p : Word) :
    firstFault (s.setPc q) ps p = firstFault s ps p := by
  induction ps generalizing p with
  | nil => rfl
  | cons c ps ih => simp only [firstFault, cellAt_setPc, paramFault_setPc, ih]

/-- R64 at `pc = p`: everything `Fetch()` can do. -/
theorem fetch_at_cases (s : State) (p : Word) :
    (∃ v, cellAt s p = some v ∧ fetch (s.setPc p) = .ok v (s.setPc (p + 1))) ∨
      (cellAt s p = none ∧ fetch (s.setPc p) = .raised (raise .addressFault (.address p) (s.setPc p))) :=
  fetch_cases (s.setPc p)

/-- R68 at `pc = p`: everything `ReadParam(m)` can do. -/
theorem readParam_at_cases (m : Mode) (s : State) (p : Word) (ps : List (Mode × ParamKind)) :
    (∃ o v, cellAt s p = some o ∧ paramSource s m o = some v ∧
        firstFault s ((m, .source) :: ps) p = firstFault s ps (p + 1) ∧
        readParam m (s.setPc p) = .ok v (s.setPc (p + 1))) ∨
      (∃ e q, firstFault s ((m, .source) :: ps) p = some (e, q) ∧
        readParam m (s.setPc p) = .raised (raise .addressFault e (s.setPc q))) := by
  rcases fetch_at_cases s p with ⟨o, ho, hf⟩ | ⟨he, hf⟩
  · rcases sourceValue_cases s m o with ⟨v, hv, hp, hs⟩ | ⟨e, _, hp, hs⟩
    · exact Or.inl ⟨o, v, ho, hv, by simp [firstFault, ho, hp], by simp [readParam, hf, hs]⟩
    · exact Or.inr ⟨e, p + 1, by simp [firstFault, ho, hp], by simp [readParam, hf, hs]⟩
  · exact Or.inr ⟨.address p, p, by simp [firstFault, he], by simp [readParam, hf]⟩

/-- R69: everything `StoreOperand(a, m, v)` can do. -/
theorem storeOperand_cases (a : Word) (m : Mode) (v : Word) (s : State) :
    (∃ d, paramCell s m a = some d ∧ storeOperand a m v s = .ok () (s.writeCell d v)) ∨
      (∃ e, paramFault s m .dest a = some e ∧ storeOperand a m v s = .raised (raise .addressFault e s)) := by
  rcases destination_cases s m a with ⟨d, hd, _, h⟩ | ⟨e, _, he, h⟩
  · exact Or.inl ⟨d, hd, by simp [storeOperand, h]⟩
  · exact Or.inr ⟨e, he, by simp [storeOperand, h]⟩

/-- R70 at `pc = p`: everything `WriteParam(v, m)` can do. -/
theorem writeParam_at_cases (v : Word) (m : Mode) (s : State) (p : Word) :
    (∃ o d, cellAt s p = some o ∧ paramCell s m o = some d ∧
        firstFault s [(m, .dest)] p = none ∧
        writeParam v m (s.setPc p) = .ok () ((s.setPc (p + 1)).writeCell d v)) ∨
      (∃ e q, firstFault s [(m, .dest)] p = some (e, q) ∧
        writeParam v m (s.setPc p) = .raised (raise .addressFault e (s.setPc q))) := by
  rcases fetch_at_cases s p with ⟨o, ho, hf⟩ | ⟨he, hf⟩
  · rcases storeOperand_cases o m v (s.setPc (p + 1)) with ⟨d, hd, hs⟩ | ⟨e, hp, hs⟩
    · rw [paramCell_setPc] at hd
      exact Or.inl ⟨o, d, ho, hd, by simp [firstFault, ho, paramFault_none_of_cell hd],
        by simp only [writeParam, hf, bind_ok, hs]⟩
    · rw [paramFault_setPc] at hp
      exact Or.inr ⟨e, p + 1, by simp [firstFault, ho, hp], by simp only [writeParam, hf, bind_ok, hs]⟩
  · exact Or.inr ⟨.address p, p, by simp [firstFault, he], by simp [writeParam, hf]⟩

theorem pc_add_two (p : Word) : p + 1 + 1 = p + 2 := by rw [BitVec.add_assoc]; rfl
theorem pc_add_three (p : Word) : p + 2 + 1 = p + 3 := by rw [BitVec.add_assoc]; rfl

/-- Format RRW: everything `storeResult` can do. -/
theorem storeResult_cases (f : Word → Word → Word) (m0 m1 m2 : Mode) (s : State) :
    (∃ a b d, runsRRW s m0 m1 m2 a b d ∧
        firstFault s [(m0, .source), (m1, .source), (m2, .dest)] s.pc = none ∧
        storeResult f m0 m1 m2 s = .ok () ((s.setPc (s.pc + 3)).writeCell d (f a b))) ∨
      (∃ e p, firstFault s [(m0, .source), (m1, .source), (m2, .dest)] s.pc = some (e, p) ∧
        storeResult f m0 m1 m2 s = .raised (raise .addressFault e (s.setPc p))) := by
  rcases readParam_at_cases m0 s s.pc [(m1, .source), (m2, .dest)] with ⟨o0, a, ho0, ha, hf0, hr0⟩ | ⟨e, p, hf0, hr0⟩
    <;> rw [setPc_self] at hr0
  swap
  · exact Or.inr ⟨e, p, hf0, by simp only [storeResult, hr0, bind_raised]⟩
  rcases readParam_at_cases m1 s (s.pc + 1) [(m2, .dest)] with ⟨o1, b, ho1, hb, hf1, hr1⟩ | ⟨e, p, hf1, hr1⟩
  swap
  · exact Or.inr ⟨e, p, hf0.trans hf1, by simp only [storeResult, hr0, bind_ok, hr1, bind_raised]⟩
  rw [pc_add_two] at hf1 hr1
  rcases writeParam_at_cases (f a b) m2 s (s.pc + 2) with ⟨o2, d, ho2, hd, hf2, hw⟩ | ⟨e, p, hf2, hw⟩
  · exact Or.inl ⟨a, b, d, ⟨o0, o1, o2, ho0, ha, ho1, hb, ho2, hd⟩, hf0.trans (hf1.trans hf2),
      by simp only [storeResult, hr0, bind_ok, hr1, hw, pc_add_three]⟩
  · exact Or.inr ⟨e, p, hf0.trans (hf1.trans hf2), by simp only [storeResult, hr0, bind_ok, hr1, hw]⟩

/-- Format RR: everything `jumpWhen` can do. -/
theorem jumpWhen_cases (taken : Word → Bool) (m0 m1 : Mode) (s : State) :
    (∃ a b, runsRR s m0 m1 a b ∧ firstFault s [(m0, .source), (m1, .source)] s.pc = none ∧
        jumpWhen taken m0 m1 s = .ok () (s.setPc (if taken a then b else s.pc + 2))) ∨
      (∃ e p, firstFault s [(m0, .source), (m1, .source)] s.pc = some (e, p) ∧
        jumpWhen taken m0 m1 s = .raised (raise .addressFault e (s.setPc p))) := by
  rcases readParam_at_cases m0 s s.pc [(m1, .source)] with ⟨o0, a, ho0, ha, hf0, hr0⟩ | ⟨e, p, hf0, hr0⟩
    <;> rw [setPc_self] at hr0
  swap
  · exact Or.inr ⟨e, p, hf0, by simp only [jumpWhen, hr0, bind_raised]⟩
  rcases readParam_at_cases m1 s (s.pc + 1) [] with ⟨o1, b, ho1, hb, hf1, hr1⟩ | ⟨e, p, hf1, hr1⟩
  swap
  · exact Or.inr ⟨e, p, hf0.trans hf1, by simp only [jumpWhen, hr0, bind_ok, hr1, bind_raised]⟩
  rw [pc_add_two] at hf1 hr1
  refine Or.inl ⟨a, b, ⟨o0, o1, ho0, ha, ho1, hb⟩, hf0.trans hf1, ?_⟩
  simp only [jumpWhen, hr0, bind_ok, hr1]
  cases taken a <;> rfl

/-! The operand values are the ones the cells hold, so a run to the end and a first fault exclude each other. -/

theorem runsRRW_unique {s : State} {m0 m1 m2 : Mode} {a b a' b' : Word} {d d' : Nat}
    (h : runsRRW s m0 m1 m2 a b d) (h' : runsRRW s m0 m1 m2 a' b' d') : a = a' ∧ b = b' ∧ d = d' := by
  obtain ⟨o0, o1, o2, h0, h1, h2, h3, h4, h5⟩ := h
  obtain ⟨p0, p1, p2, k0, k1, k2, k3, k4, k5⟩ := h'
  rw [h0] at k0; cases k0
  rw [h1] at k1; cases k1
  rw [h2] at k2; cases k2
  rw [h3] at k3; cases k3
  rw [h4] at k4; cases k4
  rw [h5] at k5; cases k5
  exact ⟨rfl, rfl, rfl⟩

theorem firstFault_of_runsRRW {s : State} {m0 m1 m2 : Mode} {a b : Word} {d : Nat}
    (h : runsRRW s m0 m1 m2 a b d) :
    firstFault s [(m0, .source), (m1, .source), (m2, .dest)] s.pc = none := by
  obtain ⟨o0, o1, o2, h0, h1, h2, h3, h4, h5⟩ := h
  simp only [firstFault, h0, paramFault_none_of_source h1, h2, paramFault_none_of_source h3, pc_add_two, h4,
    paramFault_none_of_cell h5]

theorem runsRR_unique {s : State} {m0 m1 : Mode} {a b a' b' : Word}
    (h : runsRR s m0 m1 a b) (h' : runsRR s m0 m1 a' b') : a = a' ∧ b = b' := by
  obtain ⟨o0, o1, h0, h1, h2, h3⟩ := h
  obtain ⟨p0, p1, k0, k1, k2, k3⟩ := h'
  rw [h0] at k0; cases k0
  rw [h1] at k1; cases k1
  rw [h2] at k2; cases k2
  rw [h3] at k3; cases k3
  exact ⟨rfl, rfl⟩

theorem firstFault_of_runsRR {s : State} {m0 m1 : Mode} {a b : Word} (h : runsRR s m0 m1 a b) :
    firstFault s [(m0, .source), (m1, .source)] s.pc = none := by
  obtain ⟨o0, o1, h0, h1, h2, h3⟩ := h
  simp only [firstFault, h0, paramFault_none_of_source h1, h2, paramFault_none_of_source h3]

/-! ### The end of memory operations -/

theorem mem_writeCell_other {d a : Nat} (h : a ≠ d) (v : Word) (s : State) :
    Memory.read a (s.writeCell d v).mem = Memory.read a s.mem := by
  simp [read_write_other h]

end Sys2Proof.Machine
end

