-- ==== Sys2Proof/Laws/Exec.lean ====
section
/-! SUPPORT. What each handler can do, said once per instruction: it completes with its own effect, blocks, halts, or takes
the first fault of its parameters. -/

namespace Sys2Proof.Machine

/-- Format R: everything an instruction with one source can do; `f` is its effect on the state after the operand. -/
theorem readParam_cases (m0 : Mode) (s : State) :
    (∃ a, runsR s m0 a ∧ firstFault s [(m0, .source)] s.pc = none ∧
        readParam m0 s = .ok a (s.setPc (s.pc + 1))) ∨
      (∃ e p, firstFault s [(m0, .source)] s.pc = some (e, p) ∧
        readParam m0 s = .raised (raise .addressFault e (s.setPc p))) := by
  rcases readParam_at_cases m0 s s.pc [] with ⟨o, a, ho, ha, hf, hr⟩ | ⟨e, p, hf, hr⟩ <;> rw [setPc_self] at hr
  · exact Or.inl ⟨a, ⟨o, ho, ha⟩, hf, hr⟩
  · exact Or.inr ⟨e, p, hf, hr⟩

theorem runsR_unique {s : State} {m0 : Mode} {a a' : Word} (h : runsR s m0 a) (h' : runsR s m0 a') : a = a' := by
  obtain ⟨o0, h0, h1⟩ := h
  obtain ⟨p0, k0, k1⟩ := h'
  rw [h0] at k0; cases k0
  rw [h1] at k1; cases k1
  rfl

theorem firstFault_of_runsR {s : State} {m0 : Mode} {a : Word} (h : runsR s m0 a) :
    firstFault s [(m0, .source)] s.pc = none := by
  obtain ⟨o0, h0, h1⟩ := h
  simp only [firstFault, h0, paramFault_none_of_source h1]

/-- A handler that stores the result of two sources (format RRW), by its result function. -/
theorem finish_storeResult_cases (f : Word → Word → Word) (m0 m1 m2 : Mode) (s : State) :
    (∃ a b d, runsRRW s m0 m1 m2 a b d ∧
        finish (storeResult f m0 m1 m2 s) =
          .next { s with mem := Memory.write d (f a b) s.mem, pc := s.pc + 3, status := .running }) ∨
      (∃ e p, firstFault s [(m0, .source), (m1, .source), (m2, .dest)] s.pc = some (e, p) ∧
        finish (storeResult f m0 m1 m2 s) = .next (raise .addressFault e (s.setPc p))) := by
  rcases storeResult_cases f m0 m1 m2 s with ⟨a, b, d, hr, _, h⟩ | ⟨e, p, hf, h⟩
  · exact Or.inl ⟨a, b, d, hr, by rw [h]; rfl⟩
  · exact Or.inr ⟨e, p, hf, by rw [h]; rfl⟩

/-- A jump (format RR), by its condition. -/
theorem finish_jumpWhen_cases (taken : Word → Bool) (m0 m1 : Mode) (s : State) :
    (∃ a b, runsRR s m0 m1 a b ∧
        finish (jumpWhen taken m0 m1 s) =
          .next { s with pc := if taken a then b else s.pc + 2, status := .running }) ∨
      (∃ e p, firstFault s [(m0, .source), (m1, .source)] s.pc = some (e, p) ∧
        finish (jumpWhen taken m0 m1 s) = .next (raise .addressFault e (s.setPc p))) := by
  rcases jumpWhen_cases taken m0 m1 s with ⟨a, b, hr, _, h⟩ | ⟨e, p, hf, h⟩
  · exact Or.inl ⟨a, b, hr, by rw [h]; rfl⟩
  · exact Or.inr ⟨e, p, hf, by rw [h]; rfl⟩

/-! The same by the case that applies: a run to the end and a first fault each determine the answer. -/

theorem finish_storeResult_of_runs (f : Word → Word → Word) {m0 m1 m2 : Mode} {s : State} {a b : Word} {d : Nat}
    (h : runsRRW s m0 m1 m2 a b d) :
    finish (storeResult f m0 m1 m2 s) =
      .next { s with mem := Memory.write d (f a b) s.mem, pc := s.pc + 3, status := .running } := by
  rcases finish_storeResult_cases f m0 m1 m2 s with ⟨a', b', d', h', e⟩ | ⟨e, p, hf, _⟩
  · obtain ⟨rfl, rfl, rfl⟩ := runsRRW_unique h h'
    exact e
  · rw [firstFault_of_runsRRW h] at hf; cases hf

theorem finish_storeResult_of_fault (f : Word → Word → Word) {m0 m1 m2 : Mode} {s : State} {e : FaultInfo} {p : Word}
    (h : firstFault s [(m0, .source), (m1, .source), (m2, .dest)] s.pc = some (e, p)) :
    finish (storeResult f m0 m1 m2 s) = .next (raise .addressFault e (s.setPc p)) := by
  rcases finish_storeResult_cases f m0 m1 m2 s with ⟨a, b, d, h', _⟩ | ⟨e', p', hf, h'⟩
  · rw [firstFault_of_runsRRW h'] at h; cases h
  · rw [h] at hf; cases hf; exact h'

theorem finish_jumpWhen_of_runs (taken : Word → Bool) {m0 m1 : Mode} {s : State} {a b : Word}
    (h : runsRR s m0 m1 a b) :
    finish (jumpWhen taken m0 m1 s) = .next { s with pc := if taken a then b else s.pc + 2, status := .running } := by
  rcases finish_jumpWhen_cases taken m0 m1 s with ⟨a', b', h', e⟩ | ⟨e, p, hf, _⟩
  · obtain ⟨rfl, rfl⟩ := runsRR_unique h h'
    exact e
  · rw [firstFault_of_runsRR h] at hf; cases hf

theorem finish_jumpWhen_of_fault (taken : Word → Bool) {m0 m1 : Mode} {s : State} {e : FaultInfo} {p : Word}
    (h : firstFault s [(m0, .source), (m1, .source)] s.pc = some (e, p)) :
    finish (jumpWhen taken m0 m1 s) = .next (raise .addressFault e (s.setPc p)) := by
  rcases finish_jumpWhen_cases taken m0 m1 s with ⟨a, b, h', _⟩ | ⟨e', p', hf, h'⟩
  · rw [firstFault_of_runsRR h'] at h; cases h
  · rw [h] at hf; cases hf; exact h'

/-- R93: everything OUTPUT can do. -/
theorem execOutput_cases (m0 : Mode) (s : State) :
    (∃ a, runsR s m0 a ∧ execOutput m0 s = .next ((emit a (s.setPc (s.pc + 1))).setStatus .running)) ∨
      (∃ e p, firstFault s [(m0, .source)] s.pc = some (e, p) ∧
        execOutput m0 s = .next (raise .addressFault e (s.setPc p))) := by
  rcases readParam_cases m0 s with ⟨a, hr, _, h⟩ | ⟨e, p, hf, h⟩
  · exact Or.inl ⟨a, hr, by simp only [execOutput, h, bind_ok, finish_ok]⟩
  · exact Or.inr ⟨e, p, hf, by simp only [execOutput, h, bind_raised, finish_raised]⟩

theorem execOutput_of_runs {m0 : Mode} {s : State} {a : Word} (h : runsR s m0 a) :
    execOutput m0 s = .next ((emit a (s.setPc (s.pc + 1))).setStatus .running) := by
  rcases execOutput_cases m0 s with ⟨a', h', e⟩ | ⟨e, p, hf, _⟩
  · cases runsR_unique h h'; exact e
  · rw [firstFault_of_runsR h] at hf; cases hf

theorem execOutput_of_fault {m0 : Mode} {s : State} {e : FaultInfo} {p : Word}
    (h : firstFault s [(m0, .source)] s.pc = some (e, p)) :
    execOutput m0 s = .next (raise .addressFault e (s.setPc p)) := by
  rcases execOutput_cases m0 s with ⟨a, h', _⟩ | ⟨e', p', hf, h'⟩
  · rw [firstFault_of_runsR h'] at h; cases h
  · rw [h] at hf; cases hf; exact h'

/-- R111: everything ADJUST-RELATIVE-BASE can do. -/
theorem execAdjustRelativeBase_cases (m0 : Mode) (s : State) :
    (∃ a, runsR s m0 a ∧ execAdjustRelativeBase m0 s =
        .next { s with rb := wrap (s.rb.toInt + a.toInt), pc := s.pc + 1, status := .running }) ∨
      (∃ e p, firstFault s [(m0, .source)] s.pc = some (e, p) ∧
        execAdjustRelativeBase m0 s = .next (raise .addressFault e (s.setPc p))) := by
  rcases readParam_cases m0 s with ⟨a, hr, _, h⟩ | ⟨e, p, hf, h⟩
  · exact Or.inl ⟨a, hr, by simp only [execAdjustRelativeBase, h, bind_ok, finish_ok]; rfl⟩
  · exact Or.inr ⟨e, p, hf, by simp only [execAdjustRelativeBase, h, bind_raised, finish_raised]⟩

theorem execAdjustRelativeBase_of_runs {m0 : Mode} {s : State} {a : Word} (h : runsR s m0 a) :
    execAdjustRelativeBase m0 s =
      .next { s with rb := wrap (s.rb.toInt + a.toInt), pc := s.pc + 1, status := .running } := by
  rcases execAdjustRelativeBase_cases m0 s with ⟨a', h', e⟩ | ⟨e, p, hf, _⟩
  · cases runsR_unique h h'; exact e
  · rw [firstFault_of_runsR h] at hf; cases hf

theorem execAdjustRelativeBase_of_fault {m0 : Mode} {s : State} {e : FaultInfo} {p : Word}
    (h : firstFault s [(m0, .source)] s.pc = some (e, p)) :
    execAdjustRelativeBase m0 s = .next (raise .addressFault e (s.setPc p)) := by
  rcases execAdjustRelativeBase_cases m0 s with ⟨a, h', _⟩ | ⟨e', p', hf, h'⟩
  · rw [firstFault_of_runsR h'] at h; cases h
  · rw [h] at hf; cases hf; exact h'

/-- R90: taking the input value changes INQ or the count of producer calls, and nothing else. -/
theorem takeInput_cases (s : State) :
    (∃ v q, s.inq = v :: q ∧ takeInput s = (v, s.setInq q)) ∨
      (s.inq = [] ∧ takeInput s =
        (Config.producerWord s.config.producerId s.producerCalls, s.setProducerCalls (s.producerCalls + 1))) := by
  cases h : s.inq with
  | nil => exact Or.inr ⟨rfl, by simp [takeInput, h]⟩
  | cons v q => exact Or.inl ⟨v, q, rfl, by simp [takeInput, h]⟩

theorem takeInput_mem (s : State) : (takeInput s).2.mem = s.mem := by
  rcases takeInput_cases s with ⟨v, q, _, h⟩ | ⟨_, h⟩ <;> rw [h] <;> rfl

theorem takeInput_config (s : State) : (takeInput s).2.config = s.config := by
  rcases takeInput_cases s with ⟨v, q, _, h⟩ | ⟨_, h⟩ <;> rw [h] <;> rfl

/-- The destination of INPUT does not depend on the value taken. -/
theorem paramCell_takeInput (s : State) (m : Mode) (a : Word) : paramCell (takeInput s).2 m a = paramCell s m a := by
  rcases takeInput_cases s with ⟨v, q, _, h⟩ | ⟨_, h⟩ <;> rw [h] <;> rfl

theorem paramFault_takeInput (s : State) (m : Mode) (k : ParamKind) (a : Word) :
    paramFault (takeInput s).2 m k a = paramFault s m k a := by
  rcases takeInput_cases s with ⟨v, q, _, h⟩ | ⟨_, h⟩ <;> rw [h] <;> rfl

/-- R87: everything INPUT can do. -/
theorem execInput_cases (m0 : Mode) (s : State) :
    (cellAt s s.pc = none ∧ execInput m0 s = .next (raise .addressFault (.address s.pc) s)) ∨
      (∃ o, cellAt s s.pc = some o ∧ inputAvailable s = false ∧
        execInput m0 s = .next { s with pc := s.pc - 1, status := .awaitingInput }) ∨
      (∃ o d, cellAt s s.pc = some o ∧ inputAvailable s = true ∧ paramCell s m0 o = some d ∧
        execInput m0 s = .next ((((takeInput s).2.setPc (s.pc + 1)).writeCell d (takeInput s).1).setStatus .running)) ∨
      (∃ o e, cellAt s s.pc = some o ∧ inputAvailable s = true ∧ paramFault s m0 .dest o = some e ∧
        execInput m0 s = .next (raise .addressFault e ((takeInput s).2.setPc (s.pc + 1)))) := by
  have ht : takeInput (s.setPc (s.pc + 1)) = ((takeInput s).1, (takeInput s).2.setPc (s.pc + 1)) := by
    rcases takeInput_cases s with ⟨v, q, hq, h⟩ | ⟨hq, h⟩ <;> rw [h] <;> simp [takeInput, hq] <;> rfl
  rcases fetch_cases s with ⟨o, ho, hf⟩ | ⟨he, hf⟩
  swap
  · exact Or.inl ⟨he, by simp only [execInput, hf]⟩
  have hav : inputAvailable (s.setPc (s.pc + 1)) = inputAvailable s := rfl
  cases ha : inputAvailable s with
  | false => exact Or.inr (Or.inl ⟨o, ho, rfl, by simp only [execInput, hf, hav, ha]; rfl⟩)
  | true =>
    rcases storeOperand_cases o m0 (takeInput s).1 ((takeInput s).2.setPc (s.pc + 1)) with ⟨d, hd, hs⟩ | ⟨e, hd, hs⟩
    · rw [paramCell_setPc, paramCell_takeInput] at hd
      exact Or.inr (Or.inr (Or.inl ⟨o, d, ho, rfl, hd, by
        simp only [execInput, hf, hav, ha, ht, hs, if_true]; rfl⟩))
    · rw [paramFault_setPc, paramFault_takeInput] at hd
      exact Or.inr (Or.inr (Or.inr ⟨o, e, ho, rfl, hd, by
        simp only [execInput, hf, hav, ha, ht, hs, if_true]; rfl⟩))

theorem execInput_of_bad_fetch {m0 : Mode} {s : State} (h : cellAt s s.pc = none) :
    execInput m0 s = .next (raise .addressFault (.address s.pc) s) := by
  rcases execInput_cases m0 s with ⟨_, k⟩ | ⟨o, h', _⟩ | ⟨o, d, h', _⟩ | ⟨o, e, h', _⟩
  · exact k
  all_goals rw [h] at h'; cases h'

theorem execInput_of_blocked {m0 : Mode} {s : State} {o : Word} (h : cellAt s s.pc = some o)
    (ha : inputAvailable s = false) :
    execInput m0 s = .next { s with pc := s.pc - 1, status := .awaitingInput } := by
  rcases execInput_cases m0 s with ⟨h', _⟩ | ⟨o', h', _, k⟩ | ⟨o', d', h', ha', _⟩ | ⟨o', e', h', ha', _⟩
  · rw [h] at h'; cases h'
  · exact k
  · rw [ha] at ha'; cases ha'
  · rw [ha] at ha'; cases ha'

theorem execInput_of_taken {m0 : Mode} {s : State} {o : Word} {d : Nat} (h : cellAt s s.pc = some o)
    (ha : inputAvailable s = true) (hd : paramCell s m0 o = some d) :
    execInput m0 s = .next ((((takeInput s).2.setPc (s.pc + 1)).writeCell d (takeInput s).1).setStatus .running) := by
  rcases execInput_cases m0 s with ⟨h', _⟩ | ⟨o', h', ha', k⟩ | ⟨o', d', h', _, hd', k⟩ | ⟨o', e', h', _, hd', k⟩
    <;> rw [h] at h' <;> cases h'
  · rw [ha] at ha'; cases ha'
  · rw [hd] at hd'; cases hd'; exact k
  · rw [paramFault_none_of_cell hd] at hd'; cases hd'

theorem execInput_of_fault {m0 : Mode} {s : State} {o : Word} {e : FaultInfo} (h : cellAt s s.pc = some o)
    (ha : inputAvailable s = true) (hd : paramFault s m0 .dest o = some e) :
    execInput m0 s = .next (raise .addressFault e ((takeInput s).2.setPc (s.pc + 1))) := by
  rcases execInput_cases m0 s with ⟨h', _⟩ | ⟨o', h', ha', k⟩ | ⟨o', d', h', _, hd', k⟩ | ⟨o', e', h', _, hd', k⟩
    <;> rw [h] at h' <;> cases h'
  · rw [ha] at ha'; cases ha'
  · rw [paramFault_none_of_cell hd'] at hd; cases hd
  · rw [hd] at hd'; cases hd'; exact k

/-! ### The step -/

/-- R63: everything a step can do, by what stands at `pc`. -/
theorem step_cases (s : State) :
    (s.status = .halted ∧ step s = .next s) ∨
      (s.status ≠ .halted ∧ cellAt s s.pc = none ∧ step s = .next (raise .addressFault (.address s.pc) s)) ∨
      (s.status ≠ .halted ∧ ∃ w x, cellAt s s.pc = some w ∧ decode w = .error x ∧
        step s = .next (raise .unknownOpcode (.word w) (s.setPc (s.pc + 1)))) ∨
      (s.status ≠ .halted ∧ ∃ w i, cellAt s s.pc = some w ∧ decode w = .ok i ∧
        step s = traceExecuted i (s.setPc (s.pc + 1)) (exec i (s.setPc (s.pc + 1)))) := by
  by_cases h : s.status = .halted
  · exact Or.inl ⟨h, by rw [step, if_pos h]⟩
  rcases fetch_cases s with ⟨w, hw, hf⟩ | ⟨he, hf⟩
  · cases hd : decode w with
    | error x => exact Or.inr (Or.inr (Or.inl ⟨h, w, x, hw, hd, by rw [step, if_neg h, hf]; simp only [hd]⟩))
    | ok i => exact Or.inr (Or.inr (Or.inr ⟨h, w, i, hw, hd, by rw [step, if_neg h, hf]; simp only [hd]⟩))
  · exact Or.inr (Or.inl ⟨h, he, by rw [step, if_neg h, hf]⟩)

/-- Every instruction answers a next state: no fault of the model and no refusal. -/
theorem exec_answers_next (i : Instr) (s : State) : ∃ t, exec i s = .next t := by
  have hfin : ∀ r : Sub Unit, ∃ t, finish r = .next t := fun r => by
    cases r with
    | ok u s => exact ⟨_, rfl⟩
    | raised s => exact ⟨_, rfl⟩
  cases i with
  | add m0 m1 m2 => exact hfin _
  | mul m0 m1 m2 => exact hfin _
  | input m0 =>
    rcases execInput_cases m0 s with ⟨_, h⟩ | ⟨o, _, _, h⟩ | ⟨o, d, _, _, _, h⟩ | ⟨o, e, _, _, _, h⟩ <;>
      exact ⟨_, h⟩
  | output m0 => exact hfin _
  | jumpIfTrue m0 m1 => exact hfin _
  | jumpIfFalse m0 m1 => exact hfin _
  | lessThan m0 m1 m2 => exact hfin _
  | equals m0 m1 m2 => exact hfin _
  | adjustRelativeBase m0 => exact hfin _
  | halt => exact ⟨_, rfl⟩

theorem traceExecuted_next {i : Instr} {s t : State} {o : Host.Outcome State Fault Refusal}
    (h : traceExecuted i s o = .next t) :
    ∃ u, o = .next u ∧ t = u.setTrace (u.trace ++ executedLine i s u) := by
  cases o with
  | next u => exact ⟨u, rfl, by cases h; rfl⟩
  | fault r => cases h
  | refused r => cases h

/-- `step_cases` for a given next state, with the instruction's own next state `u`. -/
theorem step_next_cases {s t : State} (h : step s = .next t) :
    (s.status = .halted ∧ t = s) ∨
      (s.status ≠ .halted ∧ cellAt s s.pc = none ∧ t = raise .addressFault (.address s.pc) s) ∨
      (s.status ≠ .halted ∧ ∃ w x, cellAt s s.pc = some w ∧ decode w = .error x ∧
        t = raise .unknownOpcode (.word w) (s.setPc (s.pc + 1))) ∨
      (s.status ≠ .halted ∧ ∃ w i u, cellAt s s.pc = some w ∧ decode w = .ok i ∧
        exec i (s.setPc (s.pc + 1)) = .next u ∧ t = u.setTrace (u.trace ++ executedLine i (s.setPc (s.pc + 1)) u)) := by
  rcases step_cases s with ⟨h', e⟩ | ⟨h', hx, e⟩ | ⟨h', w, x, hw, hx, e⟩ | ⟨h', w, i, hw, hi, e⟩ <;> rw [e] at h
  · cases h; exact .inl ⟨h', rfl⟩
  · cases h; exact .inr (.inl ⟨h', hx, rfl⟩)
  · cases h; exact .inr (.inr (.inl ⟨h', w, x, hw, hx, rfl⟩))
  · obtain ⟨u, hu, ht⟩ := traceExecuted_next h
    exact .inr (.inr (.inr ⟨h', w, i, u, hw, hi, hu, ht⟩))

theorem step_of_decoded {s : State} {w : Word} {i : Instr} (h : s.status ≠ .halted) (hw : cellAt s s.pc = some w)
    (hi : decode w = .ok i) : step s = traceExecuted i (s.setPc (s.pc + 1)) (exec i (s.setPc (s.pc + 1))) := by
  rcases step_cases s with ⟨h', _⟩ | ⟨_, he, _⟩ | ⟨_, w', x, hw', hx, _⟩ | ⟨_, w', i', hw', hi', hs⟩
  · exact absurd h' h
  · rw [hw] at he; cases he
  · rw [hw] at hw'; cases hw'; rw [hi] at hx; cases hx
  · rw [hw] at hw'; cases hw'; rw [hi] at hi'; cases hi'; exact hs

theorem step_of_undecoded {s : State} {w : Word} {x : DecodeError} (h : s.status ≠ .halted)
    (hw : cellAt s s.pc = some w) (hx : decode w = .error x) :
    step s = .next (raise .unknownOpcode (.word w) (s.setPc (s.pc + 1))) := by
  rcases step_cases s with ⟨h', _⟩ | ⟨_, he, _⟩ | ⟨_, w', y, hw', hy, hs⟩ | ⟨_, w', i', hw', hi', hs⟩
  · exact absurd h' h
  · rw [hw] at he; cases he
  · rw [hw] at hw'; cases hw'; exact hs
  · rw [hw] at hw'; cases hw'; rw [hx] at hi'; cases hi'

theorem step_of_bad_fetch {s : State} (h : s.status ≠ .halted) (he : cellAt s s.pc = none) :
    step s = .next (raise .addressFault (.address s.pc) s) := by
  rcases step_cases s with ⟨h', _⟩ | ⟨_, _, hs⟩ | ⟨_, w', y, hw', hy, hs⟩ | ⟨_, w', i', hw', hi', hs⟩
  · exact absurd h' h
  · exact hs
  · rw [he] at hw'; cases hw'
  · rw [he] at hw'; cases hw'

end Sys2Proof.Machine
end

