-- ==== Sys2Proof/Laws/Locality.lean ====
section
/-! SUPPORT. What an instruction and a step depend on, said once: two states that agree on memory, `pc`, `rb`, the head of
INQ, the configuration but VERBOSITY, and the next draw of a producer that could be drawn, are changed in the same way. -/

namespace Sys2Proof.Machine

/-- `s'` looks like `s` to an instruction. -/
structure Agree (s s' : State) : Prop where
  mem : s'.mem = s.mem
  pc : s'.pc = s.pc
  rb : s'.rb = s.rb
  cells : s'.config.memCells = s.config.memCells
  producer : s'.config.hasProducer = s.config.hasProducer
  consumer : s'.config.hasConsumer = s.config.hasConsumer
  head : s'.inq.head? = s.inq.head?
  draw : s.inq = [] → s.config.hasProducer = true →
    s'.config.producerId = s.config.producerId ∧ s'.producerCalls = s.producerCalls

/-- `t` differs from `s` as `t'` differs from `s'`. -/
structure SameChange (s s' t t' : State) : Prop where
  mem : t'.mem = t.mem
  pc : t'.pc = t.pc
  rb : t'.rb = t.rb
  status : t'.status = t.status
  config : t.config = s.config
  config' : t'.config = s'.config
  fcause : (t.fcause = s.fcause ∧ t'.fcause = s'.fcause) ∨ t'.fcause = t.fcause
  inq : (t.inq = s.inq ∧ t'.inq = s'.inq) ∨ (t.inq = s.inq.tail ∧ t'.inq = s'.inq.tail)
  calls : ∃ k, t.producerCalls = s.producerCalls + k ∧ t'.producerCalls = s'.producerCalls + k
  outq : ∃ k, t.outq = s.outq ++ k ∧ t'.outq = s'.outq ++ k
  delivered : ∃ k, t.delivered = s.delivered ++ k ∧ t'.delivered = s'.delivered ++ k
  trace : s.config.verbosity = s'.config.verbosity → ∃ k, t.trace = s.trace ++ k ∧ t'.trace = s'.trace ++ k

theorem Agree.validCell_eq {s s' : State} (h : Agree s s') (a : Word) : validCell s' a = validCell s a := by
  simp only [validCell, h.cells]

theorem Agree.cellAt_eq {s s' : State} (h : Agree s s') (a : Word) : cellAt s' a = cellAt s a := by
  simp [cellAt, h.validCell_eq, h.mem]

theorem Agree.paramSource_eq {s s' : State} (h : Agree s s') (m : Mode) (o : Word) :
    paramSource s' m o = paramSource s m o := by
  cases m <;> simp only [paramSource, h.rb, h.cellAt_eq]

theorem Agree.paramCell_eq {s s' : State} (h : Agree s s') (m : Mode) (o : Word) :
    paramCell s' m o = paramCell s m o := by
  cases m <;> simp [paramCell, h.rb, h.validCell_eq]

theorem Agree.paramFault_eq {s s' : State} (h : Agree s s') (m : Mode) (k : ParamKind) (o : Word) :
    paramFault s' m k o = paramFault s m k o := by
  cases m <;> simp [paramFault, h.rb, h.validCell_eq]

theorem Agree.runsRRW {s s' : State} (h : Agree s s') {m0 m1 m2 : Mode} {a b : Word} {d : Nat}
    (k : runsRRW s m0 m1 m2 a b d) : runsRRW s' m0 m1 m2 a b d := by
  simpa only [Machine.runsRRW, h.cellAt_eq, h.paramSource_eq, h.paramCell_eq, h.pc] using k

theorem Agree.runsRR {s s' : State} (h : Agree s s') {m0 m1 : Mode} {a b : Word}
    (k : runsRR s m0 m1 a b) : runsRR s' m0 m1 a b := by
  simpa only [Machine.runsRR, h.cellAt_eq, h.paramSource_eq, h.pc] using k

theorem Agree.runsR {s s' : State} (h : Agree s s') {m0 : Mode} {a : Word} (k : runsR s m0 a) : runsR s' m0 a := by
  simpa only [Machine.runsR, h.cellAt_eq, h.paramSource_eq, h.pc] using k

theorem Agree.firstFault_eq {s s' : State} (h : Agree s s') (ps : List (Mode × ParamKind)) (p : Word) :
    firstFault s' ps p = firstFault s ps p := by
  induction ps generalizing p with
  | nil => rfl
  | cons c ps ih => simp only [firstFault, h.cellAt_eq, h.paramFault_eq, ih]

/-- Two states that differ from `s` and `s'` in memory, `pc`, `rb` and STATUS only. -/
theorem SameChange.registers {s s' : State} {m : Memory} {p r : Word} {x : Status} :
    SameChange s s' { s with mem := m, pc := p, rb := r, status := x }
      { s' with mem := m, pc := p, rb := r, status := x } where
  mem := rfl
  pc := rfl
  rb := rfl
  status := rfl
  config := rfl
  config' := rfl
  fcause := .inl ⟨rfl, rfl⟩
  inq := .inl ⟨rfl, rfl⟩
  calls := ⟨0, rfl, rfl⟩
  outq := ⟨[], by simp⟩
  delivered := ⟨[], by simp⟩
  trace := fun _ => ⟨[], by simp⟩

theorem SameChange.raise {s s' t t' : State} (h : SameChange s s' t t') (c : FCause) (e : FaultInfo) :
    SameChange s s' (raise c e t) (raise c e t') where
  mem := h.mem
  pc := h.pc
  rb := h.rb
  status := rfl
  config := h.config
  config' := h.config'
  fcause := .inr rfl
  inq := h.inq
  calls := h.calls
  outq := h.outq
  delivered := h.delivered
  trace := fun hv => by
    obtain ⟨k, k1, k2⟩ := h.trace hv
    have hl : faultLine c e t' = faultLine c e t := by unfold faultLine; rw [h.config, h.config', hv]
    exact ⟨k ++ faultLine c e t, by simp [k1], by simp [k2, hl]⟩

theorem Agree.refl_change {s s' : State} (h : Agree s s') (hs : s'.status = s.status) : SameChange s s' s s' where
  mem := h.mem
  pc := h.pc
  rb := h.rb
  status := hs
  config := rfl
  config' := rfl
  fcause := .inl ⟨rfl, rfl⟩
  inq := .inl ⟨rfl, rfl⟩
  calls := ⟨0, rfl, rfl⟩
  outq := ⟨[], by simp⟩
  delivered := ⟨[], by simp⟩
  trace := fun _ => ⟨[], by simp⟩

theorem Agree.raise_at {s s' : State} (h : Agree s s') (c : FCause) (e : FaultInfo) (p : Word) :
    SameChange s s' (raise c e (s.setPc p)) (raise c e (s'.setPc p)) where
  mem := h.mem
  pc := rfl
  rb := h.rb
  status := rfl
  config := rfl
  config' := rfl
  fcause := .inr rfl
  inq := .inl ⟨rfl, rfl⟩
  calls := ⟨0, rfl, rfl⟩
  outq := ⟨[], by simp⟩
  delivered := ⟨[], by simp⟩
  trace := fun hv => by
    have hl : faultLine c e (s'.setPc p) = faultLine c e (s.setPc p) := by
      unfold faultLine; rw [setPc_config, setPc_config, hv]
    exact ⟨faultLine c e (s.setPc p), rfl, by rw [← hl]; rfl⟩

/-- Taking the input value: the same value, and the same change of INQ or of the producer's draws. -/
theorem Agree.takeInput {s s' : State} (h : Agree s s') (ha : inputAvailable s = true) :
    (takeInput s').1 = (takeInput s).1 ∧
    ∀ (m : Memory) (p : Word) (x : Status),
      SameChange s s' { (takeInput s).2 with mem := m, pc := p, status := x }
        { (takeInput s').2 with mem := m, pc := p, status := x } := by
  cases hq : s.inq with
  | cons v q =>
    have hq' : ∃ q', s'.inq = v :: q' := by
      have hh := h.head
      rw [hq] at hh
      cases hs : s'.inq with
      | nil => rw [hs] at hh; cases hh
      | cons v' q' => rw [hs] at hh; cases hh; exact ⟨q', rfl⟩
    obtain ⟨q', hq'⟩ := hq'
    have e : Machine.takeInput s = (v, s.setInq q) := by simp only [Machine.takeInput, hq]
    have e' : Machine.takeInput s' = (v, s'.setInq q') := by simp only [Machine.takeInput, hq']
    rw [e, e']
    exact ⟨rfl, fun m p x => ⟨rfl, rfl, h.rb, rfl, rfl, rfl, .inl ⟨rfl, rfl⟩, .inr ⟨by simp [hq], by simp [hq']⟩,
      ⟨0, rfl, rfl⟩, ⟨[], by simp⟩, ⟨[], by simp⟩, fun _ => ⟨[], by simp⟩⟩⟩
  | nil =>
    have hq' : s'.inq = [] := by
      have hh := h.head
      rw [hq] at hh
      cases hs : s'.inq with
      | nil => rfl
      | cons v' q' => rw [hs] at hh; cases hh
    have hp : s.config.hasProducer = true := by simpa [inputAvailable, hq] using ha
    obtain ⟨d1, d2⟩ := h.draw hq hp
    have e : Machine.takeInput s =
        (Config.producerWord s.config.producerId s.producerCalls, s.setProducerCalls (s.producerCalls + 1)) := by
      simp only [Machine.takeInput, hq]
    have e' : Machine.takeInput s' =
        (Config.producerWord s.config.producerId s.producerCalls, s'.setProducerCalls (s'.producerCalls + 1)) := by
      simp only [Machine.takeInput, hq', d1, d2]
    rw [e, e']
    exact ⟨rfl, fun m p x => ⟨rfl, rfl, h.rb, rfl, rfl, rfl, .inl ⟨rfl, rfl⟩, .inl ⟨rfl, rfl⟩,
      ⟨1, rfl, rfl⟩, ⟨[], by simp⟩, ⟨[], by simp⟩, fun _ => ⟨[], by simp⟩⟩⟩

theorem Agree.inputAvailable_eq {s s' : State} (h : Agree s s') : inputAvailable s' = inputAvailable s := by
  have hh := h.head
  unfold inputAvailable
  rw [h.producer]
  cases hs : s'.inq <;> cases ht : s.inq <;> rw [hs, ht] at hh <;> first | rfl | cases hh

/-- What an instruction does depends only on what `Agree` names. -/
theorem exec_local {i : Instr} {s s' t : State} (h : Agree s s') (ht : exec i s = .next t) :
    ∃ t', exec i s' = .next t' ∧ SameChange s s' t t' := by
  have rrw : ∀ (f : Word → Word → Word) (m0 m1 m2 : Mode), finish (storeResult f m0 m1 m2 s) = .next t →
      ∃ t', finish (storeResult f m0 m1 m2 s') = .next t' ∧ SameChange s s' t t' := by
    intro f m0 m1 m2 ht
    rcases finish_storeResult_cases f m0 m1 m2 s with ⟨a, b, d, hr, e⟩ | ⟨e, p, hf, h'⟩
    · cases ht.symm.trans e
      refine ⟨_, finish_storeResult_of_runs f (h.runsRRW hr), ?_⟩
      rw [h.mem, h.pc]
      have := SameChange.registers (s := s) (s' := s') (m := Memory.write d (f a b) s.mem) (p := s.pc + 3) (r := s.rb)
        (x := .running)
      rwa [show ({ s' with mem := Memory.write d (f a b) s.mem, pc := s.pc + 3, rb := s.rb, status := .running } : State)
        = { s' with mem := Memory.write d (f a b) s.mem, pc := s.pc + 3, status := .running } by rw [← h.rb]] at this
    · cases ht.symm.trans h'
      exact ⟨_, finish_storeResult_of_fault f (by rw [h.firstFault_eq, h.pc]; exact hf), h.raise_at _ _ _⟩
  have rr : ∀ (f : Word → Bool) (m0 m1 : Mode), finish (jumpWhen f m0 m1 s) = .next t →
      ∃ t', finish (jumpWhen f m0 m1 s') = .next t' ∧ SameChange s s' t t' := by
    intro f m0 m1 ht
    rcases finish_jumpWhen_cases f m0 m1 s with ⟨a, b, hr, e⟩ | ⟨e, p, hf, h'⟩
    · cases ht.symm.trans e
      refine ⟨_, finish_jumpWhen_of_runs f (h.runsRR hr), ?_⟩
      rw [h.pc]
      exact ⟨h.mem, rfl, h.rb, rfl, rfl, rfl, .inl ⟨rfl, rfl⟩, .inl ⟨rfl, rfl⟩, ⟨0, rfl, rfl⟩, ⟨[], by simp⟩,
        ⟨[], by simp⟩, fun _ => ⟨[], by simp⟩⟩
    · cases ht.symm.trans h'
      exact ⟨_, finish_jumpWhen_of_fault f (by rw [h.firstFault_eq, h.pc]; exact hf), h.raise_at _ _ _⟩
  cases i with
  | add m0 m1 m2 => exact rrw _ m0 m1 m2 ht
  | mul m0 m1 m2 => exact rrw _ m0 m1 m2 ht
  | lessThan m0 m1 m2 => exact rrw _ m0 m1 m2 ht
  | equals m0 m1 m2 => exact rrw _ m0 m1 m2 ht
  | jumpIfTrue m0 m1 => exact rr _ m0 m1 ht
  | jumpIfFalse m0 m1 => exact rr _ m0 m1 ht
  | halt =>
    cases ht
    exact ⟨_, rfl, h.mem, h.pc, h.rb, rfl, rfl, rfl, .inl ⟨rfl, rfl⟩, .inl ⟨rfl, rfl⟩, ⟨0, rfl, rfl⟩,
      ⟨[], by simp⟩, ⟨[], by simp⟩, fun _ => ⟨[], by simp⟩⟩
  | adjustRelativeBase m0 =>
    rcases execAdjustRelativeBase_cases m0 s with ⟨a, hr, e⟩ | ⟨e, p, hf, h'⟩
    · cases ht.symm.trans e
      refine ⟨_, execAdjustRelativeBase_of_runs (h.runsR hr), ?_⟩
      rw [h.pc, h.rb]
      exact ⟨h.mem, rfl, rfl, rfl, rfl, rfl, .inl ⟨rfl, rfl⟩, .inl ⟨rfl, rfl⟩, ⟨0, rfl, rfl⟩, ⟨[], by simp⟩,
        ⟨[], by simp⟩, fun _ => ⟨[], by simp⟩⟩
    · cases ht.symm.trans h'
      exact ⟨_, execAdjustRelativeBase_of_fault (by rw [h.firstFault_eq, h.pc]; exact hf), h.raise_at _ _ _⟩
  | output m0 =>
    rcases execOutput_cases m0 s with ⟨a, hr, e⟩ | ⟨e, p, hf, h'⟩
    · cases ht.symm.trans e
      refine ⟨_, execOutput_of_runs (h.runsR hr), ?_⟩
      have hc := h.consumer
      unfold emit
      rw [setPc_config, setPc_config, hc, h.pc]
      split
      · exact ⟨h.mem, rfl, h.rb, rfl, rfl, rfl, .inl ⟨rfl, rfl⟩, .inl ⟨rfl, rfl⟩, ⟨0, rfl, rfl⟩, ⟨[], by simp⟩,
          ⟨[a], rfl, rfl⟩, fun _ => ⟨[], by simp⟩⟩
      · exact ⟨h.mem, rfl, h.rb, rfl, rfl, rfl, .inl ⟨rfl, rfl⟩, .inl ⟨rfl, rfl⟩, ⟨0, rfl, rfl⟩, ⟨[a], rfl, rfl⟩,
          ⟨[], by simp⟩, fun _ => ⟨[], by simp⟩⟩
    · cases ht.symm.trans h'
      exact ⟨_, execOutput_of_fault (by rw [h.firstFault_eq, h.pc]; exact hf), h.raise_at _ _ _⟩
  | input m0 =>
    have hm : cellAt s' s'.pc = cellAt s s.pc := by rw [h.cellAt_eq, h.pc]
    have hself : ∀ u : State, u.setPc u.pc = u := fun u => rfl
    rcases execInput_cases m0 s with ⟨ho, k⟩ | ⟨o, ho, ha, k⟩ | ⟨o, d, ho, ha, hd, k⟩ | ⟨o, e, ho, ha, hd, k⟩ <;>
      cases ht.symm.trans k <;> rw [← hm] at ho
    · refine ⟨_, execInput_of_bad_fetch ho, ?_⟩
      rw [h.pc]
      have := h.raise_at .addressFault (.address s.pc) s.pc
      rwa [hself s, show s'.setPc s.pc = s' by rw [← h.pc]; rfl] at this
    · refine ⟨_, execInput_of_blocked ho (by rw [h.inputAvailable_eq, ha]), ?_⟩
      rw [h.pc]
      exact ⟨h.mem, rfl, h.rb, rfl, rfl, rfl, .inl ⟨rfl, rfl⟩, .inl ⟨rfl, rfl⟩, ⟨0, rfl, rfl⟩, ⟨[], by simp⟩,
        ⟨[], by simp⟩, fun _ => ⟨[], by simp⟩⟩
    · obtain ⟨hv, hc⟩ := h.takeInput ha
      refine ⟨_, execInput_of_taken ho (by rw [h.inputAvailable_eq, ha]) (by rw [h.paramCell_eq, hd]), ?_⟩
      have := hc (Memory.write d (takeInput s).1 s.mem) (s.pc + 1) .running
      simp only [State.writeCell, State.setMem, State.setPc, State.setStatus, hv, h.pc, takeInput_mem, h.mem]
      exact this
    · obtain ⟨hv, hc⟩ := h.takeInput ha
      refine ⟨_, execInput_of_fault ho (by rw [h.inputAvailable_eq, ha]) (by rw [h.paramFault_eq, hd]), ?_⟩
      have hst := (hc s.mem (s.pc + 1) .running).raise .addressFault e
      have e1 : ∀ u : State, u.mem = s.mem → raise .addressFault e (u.setPc (s.pc + 1)) =
          raise .addressFault e { u with mem := s.mem, pc := s.pc + 1, status := .running } := by
        intro u hu; rw [← hu]; rfl
      rw [h.pc, e1 _ (takeInput_mem s), e1 _ ((takeInput_mem s').trans h.mem)]
      exact hst

/-- What a step does depends only on what `Agree` names, on STATUS and, for the trace line of HALT, on FCAUSE. -/
theorem step_local {s s' t : State} (h : Agree s s') (hst : s'.status = s.status) (hfc : s'.fcause = s.fcause)
    (ht : step s = .next t) : ∃ t', step s' = .next t' ∧ SameChange s s' t t' := by
  have hm : cellAt s' s'.pc = cellAt s s.pc := by rw [h.cellAt_eq, h.pc]
  rcases step_next_cases ht with ⟨hh, rfl⟩ | ⟨hh, he, rfl⟩ | ⟨hh, w, x, hw, hx, rfl⟩ | ⟨hh, w, i, u, hw, hi, hu, rfl⟩
  · exact ⟨s', by rw [step, if_pos (hst.trans hh)], h.refl_change hst⟩
  · refine ⟨_, step_of_bad_fetch (by rw [hst]; exact hh) (hm.trans he), ?_⟩
    have := h.raise_at .addressFault (.address s.pc) s.pc
    rw [h.pc]
    rwa [show s.setPc s.pc = s from rfl, show s'.setPc s.pc = s' by rw [← h.pc]; rfl] at this
  · refine ⟨_, step_of_undecoded (by rw [hst]; exact hh) (hm.trans hw) hx, ?_⟩
    rw [h.pc]
    exact h.raise_at _ _ _
  · have ha : Agree (s.setPc (s.pc + 1)) (s'.setPc (s'.pc + 1)) :=
      ⟨h.mem, by simp [h.pc], h.rb, h.cells, h.producer, h.consumer, h.head, h.draw⟩
    obtain ⟨u', hu', hs⟩ := exec_local ha hu
    refine ⟨_, by rw [step_of_decoded (by rw [hst]; exact hh) (hm.trans hw) hi, hu']; rfl, ?_⟩
    refine ⟨hs.mem, hs.pc, hs.rb, hs.status, hs.config, hs.config', hs.fcause, hs.inq, hs.calls, hs.outq,
      hs.delivered, fun hv => ?_⟩
    obtain ⟨k, hk, hk'⟩ := hs.trace hv
    refine ⟨k ++ executedLine i (s.setPc (s.pc + 1)) u, by simp [hk], ?_⟩
    have oc : ∀ (x y : Word) (n : Nat) (p : Word), operandCells (s'.setPc x) p n = operandCells (s.setPc y) p n := by
      intro x y n
      induction n with
      | zero => intro p; rfl
      | succ n ih => intro p; simp only [operandCells, ih, setPc_mem, h.mem]
    have hc : completed u' = completed u := by
      have : u'.fcause = u.fcause := by
        rcases hs.fcause with ⟨f1, f2⟩ | f
        · rw [f1, f2]; exact hfc
        · exact f
      unfold completed
      rw [hs.status, this]
    have hl : executedLine i (s'.setPc (s'.pc + 1)) u' = executedLine i (s.setPc (s.pc + 1)) u := by
      unfold executedLine
      rw [hc]
      simp only [oc _ (s.pc + 1), setPc_pc, setPc_config, h.pc, hv]
    show u'.trace ++ _ = _
    rw [hl, hk']
    simp

end Sys2Proof.Machine
end

