-- ==== Sys2Proof/Laws/PerInstr.lean ====
section
/-! SUPPORT. A fact about every instruction as syntax, one lemma per constructor: the encoder's number has the
instruction's opcode in its two low decimal digits and at most five digits (30_encoding.md R48). -/

namespace Sys2Proof.Laws.EncodedOpcode

/-- The encoding of a well-formed instruction is a number below 10^5 whose two low digits are its opcode. -/
def Statement (i : Instr) : Prop := i.wf = true → encodeNat i % 100 = i.opcode ∧ encodeNat i < 100000

theorem digit_le_nine {m : Mode} (h : m.wf = true) : m.digit ≤ 9 := by
  cases m with
  | position => decide
  | immediate => decide
  | relative => decide
  | reserved d =>
    simp only [Mode.wf, Bool.and_eq_true, decide_eq_true_eq] at h
    exact h.2

theorem of_modes (op : Nat) (ms : List Mode) (h100 : op < 100) (hlen : ms.length ≤ 3)
    (hwf : ∀ m ∈ ms, m.wf = true) :
    (op + 100 * modesValue ms) % 100 = op ∧ op + 100 * modesValue ms < 100000 := by
  have hd : ∀ m ∈ ms, m.digit ≤ 9 := fun m hm => digit_le_nine (hwf m hm)
  refine ⟨by omega, ?_⟩
  match ms, hlen, hd with
  | [], _, _ => simp [modesValue]; omega
  | [a], _, hd =>
    have := hd a (by simp)
    simp [modesValue]; omega
  | [a, b], _, hd =>
    have := hd a (by simp); have := hd b (by simp)
    simp [modesValue]; omega
  | [a, b, c], _, hd =>
    have := hd a (by simp); have := hd b (by simp); have := hd c (by simp)
    simp [modesValue]; omega
  | _ :: _ :: _ :: _ :: _, hlen, _ =>
    simp only [List.length_cons] at hlen
    omega

theorem add (m0 m1 m2 : Mode) : Statement (.add m0 m1 m2) := fun h =>
  of_modes 1 [m0, m1, m2] (by decide) (by simp) (by simpa [Instr.wf, and_assoc] using h)
theorem mul (m0 m1 m2 : Mode) : Statement (.mul m0 m1 m2) := fun h =>
  of_modes 2 [m0, m1, m2] (by decide) (by simp) (by simpa [Instr.wf, and_assoc] using h)
theorem input (m0 : Mode) : Statement (.input m0) := fun h =>
  of_modes 3 [m0] (by decide) (by simp) (by simpa [Instr.wf, and_assoc] using h)
theorem output (m0 : Mode) : Statement (.output m0) := fun h =>
  of_modes 4 [m0] (by decide) (by simp) (by simpa [Instr.wf, and_assoc] using h)
theorem jumpIfTrue (m0 m1 : Mode) : Statement (.jumpIfTrue m0 m1) := fun h =>
  of_modes 5 [m0, m1] (by decide) (by simp) (by simpa [Instr.wf, and_assoc] using h)
theorem jumpIfFalse (m0 m1 : Mode) : Statement (.jumpIfFalse m0 m1) := fun h =>
  of_modes 6 [m0, m1] (by decide) (by simp) (by simpa [Instr.wf, and_assoc] using h)
theorem lessThan (m0 m1 m2 : Mode) : Statement (.lessThan m0 m1 m2) := fun h =>
  of_modes 7 [m0, m1, m2] (by decide) (by simp) (by simpa [Instr.wf, and_assoc] using h)
theorem equals (m0 m1 m2 : Mode) : Statement (.equals m0 m1 m2) := fun h =>
  of_modes 8 [m0, m1, m2] (by decide) (by simp) (by simpa [Instr.wf, and_assoc] using h)
theorem adjustRelativeBase (m0 : Mode) : Statement (.adjustRelativeBase m0) := fun h =>
  of_modes 9 [m0] (by decide) (by simp) (by simpa [Instr.wf, and_assoc] using h)
theorem halt : Statement .halt := fun _ =>
  of_modes 99 [] (by decide) (by simp) (by simp)

end Sys2Proof.Laws.EncodedOpcode
end

