-- ==== Sys2Proof/Tests/Slice0.lean ====
section
/-! SUPPORT. The model's own tests: ill-formed terms, words written out from the spec's encoding, one step per instruction
with the expected result taken from 95_test_vectors.md, and a witness for the hypotheses of every statement. -/

namespace Sys2Proof.Tests

open Sys2Proof Sys2Proof.Machine

/-! ### Small states -/

def words (l : List Int) : List Word := l.map (BitVec.ofInt 64)

/-- A new core of `cells` cells with a program loaded and inputs pushed. -/
def boot (cells : Nat) (program inputs : List Int) : State :=
  prepare (words program) (words inputs) (State.create { Config.initial with memCells := cells })

/-- The state on entry to the handler: `pc` one past the instruction word. -/
def entered (s : State) : State := s.setPc (s.pc + 1)

def nextOf (o : Host.Outcome State Fault Refusal) : Option State :=
  match o with
  | .next t => some t
  | .fault _ => none
  | .refused _ => none

def stepped (cells : Nat) (program inputs : List Int) : Option State := nextOf (step (boot cells program inputs))

/-! ### Well-formedness: every mode is one decimal digit, at every place -/

theorem test_wf_add_0 : (Instr.add (.reserved 2) .position .position).wf = false := by decide
theorem test_wf_add_1 : (Instr.add .position (.reserved 10) .position).wf = false := by decide
theorem test_wf_add_2 : (Instr.add .position .position (.reserved 0)).wf = false := by decide
theorem test_wf_mul_0 : (Instr.mul (.reserved 10) .position .position).wf = false := by decide
theorem test_wf_mul_1 : (Instr.mul .position (.reserved 2) .position).wf = false := by decide
theorem test_wf_mul_2 : (Instr.mul .position .position (.reserved 10)).wf = false := by decide
theorem test_wf_input : (Instr.input (.reserved 10)).wf = false := by decide
theorem test_wf_output : (Instr.output (.reserved 2)).wf = false := by decide
theorem test_wf_jumpIfTrue_0 : (Instr.jumpIfTrue (.reserved 1) .position).wf = false := by decide
theorem test_wf_jumpIfTrue_1 : (Instr.jumpIfTrue .position (.reserved 10)).wf = false := by decide
theorem test_wf_jumpIfFalse_0 : (Instr.jumpIfFalse (.reserved 10) .position).wf = false := by decide
theorem test_wf_jumpIfFalse_1 : (Instr.jumpIfFalse .position (.reserved 2)).wf = false := by decide
theorem test_wf_lessThan_0 : (Instr.lessThan (.reserved 2) .position .position).wf = false := by decide
theorem test_wf_lessThan_1 : (Instr.lessThan .position (.reserved 10) .position).wf = false := by decide
theorem test_wf_lessThan_2 : (Instr.lessThan .position .position (.reserved 2)).wf = false := by decide
theorem test_wf_equals_0 : (Instr.equals (.reserved 10) .position .position).wf = false := by decide
theorem test_wf_equals_1 : (Instr.equals .position (.reserved 2) .position).wf = false := by decide
theorem test_wf_equals_2 : (Instr.equals .position .position (.reserved 10)).wf = false := by decide
theorem test_wf_adjust : (Instr.adjustRelativeBase (.reserved 2)).wf = false := by decide
theorem test_wf_reserved_ends :
    (Instr.add (.reserved 3) (.reserved 9) .relative).wf = true := by decide

/-! ### Decoding: words written out digit by digit from 30_encoding.md sections 1 and 5 (mode digits from the left: parameter
2, 1, 0, then the two opcode digits) -/

theorem test_decode_add : decode 21001 = .ok (.add .position .immediate .relative) := by decide
theorem test_decode_mul : decode 102 = .ok (.mul .immediate .position .position) := by decide
theorem test_decode_input : decode 203 = .ok (.input .relative) := by decide
theorem test_decode_output : decode 104 = .ok (.output .immediate) := by decide
theorem test_decode_jumpIfTrue : decode 2105 = .ok (.jumpIfTrue .immediate .relative) := by decide
theorem test_decode_jumpIfFalse : decode 1206 = .ok (.jumpIfFalse .relative .immediate) := by decide
theorem test_decode_lessThan : decode 20107 = .ok (.lessThan .immediate .position .relative) := by decide
theorem test_decode_equals : decode 22208 = .ok (.equals .relative .relative .relative) := by decide
theorem test_decode_adjust : decode 209 = .ok (.adjustRelativeBase .relative) := by decide
theorem test_decode_halt : decode 99 = .ok .halt := by decide
/-- vector DX4: the largest Word -/
theorem test_decode_max :
    decode 9223372036854775807 = .ok (.lessThan (.reserved 8) (.reserved 5) (.reserved 7)) := by decide
/-- vectors UK1, UK4, UK6, UK7: opcodes 0, 10, 98 and 0 again -/
theorem test_decode_unknown :
    [decode 0, decode 10, decode 98, decode 100] =
      [.error (.unknownOpcode 0), .error (.unknownOpcode 10), .error (.unknownOpcode 98), .error (.unknownOpcode 0)] := by
  decide
/-- vectors UK9, UK10: a negative word is no instruction -/
theorem test_decode_negative :
    [decode (-99), decode (BitVec.ofInt 64 (-(2 ^ 63)))] =
      [.error (.negativeWord (-99)), .error (.negativeWord (BitVec.ofInt 64 (-(2 ^ 63))))] := by
  decide
theorem test_encode_add : encode (.add .position .immediate .relative) = 21001 := by decide
theorem test_table_word : decodeTableWord 256 1002 = some (.mul .position .immediate .position) := by decide
theorem test_table_word_refused : decodeTableWord 256 33 = none := by decide
/-- The first step after reset runs the placed instruction. -/
theorem test_withFetchWord :
    (nextOf (step (State.reset.withFetchWord 64 99))).map (fun t => (t.status, t.pc)) = some (.halted, 1) := by decide
theorem test_withFetchWord_operands :
    (nextOf (step (State.reset.withFetchWord 128 (109 + 2 ^ 64 * 5)))).map (fun t => (t.rb, t.pc)) = some (5, 2) := by
  decide

/-! ### One step per instruction (95_test_vectors.md part 2; the vector is named) -/

/-- AD2 -/
theorem test_add_wraps : (stepped 8 [1101, 2 ^ 63 - 1, 1, 0, 99] []).map (fun t => (Memory.read 0 t.mem, t.pc)) =
    some (BitVec.ofInt 64 (-(2 ^ 63)), 4) := by decide
/-- AD7 -/
theorem test_add_modes : (stepped 8 [101, -1, 0, 0, 99] []).map (fun t => Memory.read 0 t.mem) = some 100 := by decide
/-- MU6 -/
theorem test_mul_wraps : (stepped 8 [1102, 3037000500, 3037000500, 0, 99] []).map (fun t => Memory.read 0 t.mem) =
    some (BitVec.ofInt 64 (-9223372036709301616)) := by decide
/-- V3 -/
theorem test_mul_stores_ahead : (stepped 8 [1002, 4, 3, 4, 33] []).map (fun t => (Memory.read 4 t.mem, t.pc)) =
    some (99, 4) := by decide
/-- IN5 -/
theorem test_input_takes_head : (stepped 8 [3, 0, 99] [7, 8, 9]).map (fun t => (Memory.read 0 t.mem, t.inq)) =
    some (7, [8, 9]) := by decide
/-- IN9: the value is lost and memory unchanged -/
theorem test_input_immediate : (stepped 8 [103, 0, 99] [42]).map (fun t => (t.fcause, t.pc, t.inq, Memory.read 0 t.mem)) =
    some (.addressFault, 2, [], 103) := by decide
/-- OU3 -/
theorem test_output_own_word : (stepped 8 [4, 0, 99] []).map (fun t => (t.outq, t.pc)) = some ([4], 2) := by decide
/-- OU7 -/
theorem test_output_reserved : (stepped 8 [304, 0, 99] []).map (fun t => (t.outq, t.fcause, t.pc)) =
    some ([], .addressFault, 2) := by decide
/-- JT1 -/
theorem test_jumpIfTrue_negative : (stepped 8 [1105, -1, 4, 99, 104, 7, 99] []).map (fun t => t.pc) = some 4 := by decide
/-- JT6 -/
theorem test_jumpIfTrue_not_taken : (stepped 8 [1105, 0, -1, 99] []).map (fun t => (t.pc, t.status)) =
    some (3, .running) := by decide
/-- JF1 -/
theorem test_jumpIfFalse_taken : (stepped 8 [1106, 0, 4, 99, 104, 7, 99] []).map (fun t => t.pc) = some 4 := by decide
/-- JF4 -/
theorem test_jumpIfFalse_reserved : (stepped 8 [4006, 0, 0, 99] []).map (fun t => (t.fcause, t.pc)) =
    some (.addressFault, 3) := by decide
/-- LT3 -/
theorem test_lessThan_signed : (stepped 8 [1107, -1, 0, 0, 99] []).map (fun t => Memory.read 0 t.mem) = some 1 := by decide
/-- LT7 -/
theorem test_lessThan_ends : (stepped 8 [1107, 2 ^ 63 - 1, -(2 ^ 63), 0, 99] []).map (fun t => Memory.read 0 t.mem) =
    some 0 := by decide
/-- EQ1 -/
theorem test_equals_negative : (stepped 8 [1108, -7, -7, 0, 99] []).map (fun t => Memory.read 0 t.mem) = some 1 := by decide
/-- EQ5 -/
theorem test_equals_differs : (stepped 8 [1108, 2 ^ 63 - 1, -(2 ^ 63), 0, 99] []).map (fun t => Memory.read 0 t.mem) =
    some 0 := by decide
/-- RB4: the operand uses the old `rb` -/
theorem test_adjust_relative : (stepped 8 [209, 0, 99] []).map (fun t => (t.rb, t.pc)) = some (209, 2) := by decide
/-- RB7, its second instruction -/
theorem test_adjust_wraps : (nextOf (step ((boot 8 [109, 1, 99] []).setRb (BitVec.ofInt 64 (2 ^ 63 - 1))))).map
    (fun t => t.rb) = some (BitVec.ofInt 64 (-(2 ^ 63))) := by decide
/-- HL4 -/
theorem test_halt_digits : (stepped 8 [1234599] []).map (fun t => (t.status, t.fcause, t.pc)) =
    some (.halted, .none, 1) := by decide
/-- HL5 -/
theorem test_halt_again : (nextOf (step ((boot 8 [99] []).setStatus .halted))).map (fun t => (t.status, t.pc)) =
    some (.halted, 0) := by decide

/-! ### The host's operations (95_test_vectors.md section 2.11) -/

/-- RS5 -/
theorem test_text_trimmed : parseProgram " 1002,4,3,4,33\n".toList = some (words [1002, 4, 3, 4, 33]) := by decide
/-- RS6 -/
theorem test_text_empty_token : [parseProgram "1,,2".toList, parseProgram "1,2,".toList, parseProgram []] =
    [none, none, none] := by decide
/-- RS7 -/
theorem test_text_not_a_word : parseProgram "9223372036854775808".toList = none := by decide
/-- RS8 -/
theorem test_text_signs : parseProgram "+5,-0,007".toList = some (words [5, 0, 7]) := by decide
/-- RS3 -/
theorem test_load_keeps_tail :
    (loadProgram (words [99]) (loadProgram (words [1, 2, 3]) (boot 8 [] [])).1).1.mem = [(0, 99), (1, 2), (2, 3)] := by
  decide
/-- VERBOSITY 2 (60_exceptions.md section 5): the address and the operand cells of the executed instruction. -/
theorem test_trace_line : (nextOf (step (setVerbosity .everyInstruction (boot 8 [1101, 2, 3, 0] [])))).map (fun t => t.trace) =
    some [.executed 0 (.add .immediate .immediate .position) [2, 3, 0]] := by decide
/-- VERBOSITY 1: one line per fault. -/
theorem test_trace_fault : (nextOf (step (setVerbosity .errorsOnly (boot 8 [33] [])))).map (fun t => t.trace) =
    some [.fault .unknownOpcode (.word 33)] := by decide
/-- 10_state.md R16: writing 0 unlists a cell. -/
theorem test_memory_canonical : Memory.write 3 0 (Memory.write 1 7 (Memory.write 3 5 [])) = [(1, 7)] := by decide
theorem test_reset_memory_wf : Memory.wf State.reset.mem = true := by decide

/-! ### Witnesses: for each statement with hypotheses, states and operands that meet them, clause by clause, at boundary values

A handler is entered with `pc` one past the instruction word, so the states of the instruction statements are `entered` ones. -/

/-- OpcodeSelectsInstruction: the least and the largest Word that is not negative. -/
theorem witness_OpcodeSelectsInstruction : 0 ≤ (0 : Word).toInt ∧ 0 ≤ (9223372036854775807 : Word).toInt := by decide

/-- DecodedModesAreDigits, DecodedIsCanonical: the largest Word, whose three mode digits are reserved. -/
theorem witness_DecodedModesAreDigits : decode 9223372036854775807 =
    .ok (.lessThan (.reserved 8) (.reserved 5) (.reserved 7)) := by decide

theorem witness_DecodeEncodeRoundTrip : (Instr.mul (.reserved 9) (.reserved 3) .immediate).wf = true := by decide

theorem witness_CellsRoundTrip : (Instr.jumpIfTrue .relative (.reserved 9)).wf = true ∧
    (words [-(2 ^ 63), 2 ^ 63 - 1]).length = (Instr.jumpIfTrue .relative (.reserved 9)).paramCount := by decide

theorem witness_DecodeIgnoresUnexaminedDigits : decode 1004 = .ok (.output .position) ∧ 0 ≤ (33004 : Word).toInt ∧
    (33004 : Word).toNat % 10 ^ (2 + (Instr.output .position).paramCount) =
      (1004 : Word).toNat % 10 ^ (2 + (Instr.output .position).paramCount) := by decide

theorem witness_StepRunsDecodedInstruction : (boot 1 [99] []).status ≠ .halted ∧
    cellAt (boot 1 [99] []) (boot 1 [99] []).pc = some 99 ∧ decode 99 = .ok .halt ∧
    (boot 1 [99] []).config.verbosity ≠ .everyInstruction := by decide

theorem witness_HaltedStepChangesNothing : ((boot 4 [99] []).setStatus .halted).status = .halted := by decide

/-- The first address above memory, and the first below. -/
theorem witness_FetchOutsideMemoryFaults :
    (((boot 4 [99] []).setPc 4).status ≠ .halted ∧
      ¬ (0 ≤ ((boot 4 [99] []).setPc 4).pc.toInt ∧ ((boot 4 [99] []).setPc 4).pc.toInt < 4)) ∧
    ¬ (0 ≤ ((boot 4 [99] []).setPc (-1)).pc.toInt ∧ ((boot 4 [99] []).setPc (-1)).pc.toInt < 4) := by decide

/-- A negative word, and an opcode outside the set. -/
theorem witness_UnknownOpcodeHalts :
    ((boot 4 [-1] []).status ≠ .halted ∧ cellAt (boot 4 [-1] []) 0 = some (-1) ∧ (-1 : Word).toInt < 0) ∧
    ((boot 4 [98] []).status ≠ .halted ∧ cellAt (boot 4 [98] []) 0 = some 98 ∧
      (98 : Word).toNat % 100 ∉ [1, 2, 3, 4, 5, 6, 7, 8, 9, 99]) := by decide

/-- The second clause of AwaitingInputStepsLikeRunning: a word at `pc` that decodes, in a core that waits. -/
theorem witness_AwaitingInputStepsLikeRunning_executes : cellAt (boot 1 [99] []) (boot 1 [99] []).pc = some 99 ∧
    decode 99 = .ok .halt ∧ (Status.awaitingInput = .running ∨ Status.awaitingInput = .awaitingInput) := by decide

/-- The third clause: a step that blocks. -/
theorem witness_AwaitingInputStepsLikeRunning_blocks : ∃ t, (boot 4 [3, 0] []).status ≠ .halted ∧
    step (boot 4 [3, 0] []) = .next t ∧ t.status = .awaitingInput := ⟨_, by decide, rfl, by decide⟩

/-- The sources at the ends of the Word range, the destination the last cell. -/
theorem witness_AddStoresWrappedSum_runs :
    runsRRW (entered (boot 8 [1101, 2 ^ 63 - 1, 1, 7] [])) .immediate .immediate .position (BitVec.ofInt 64 (2 ^ 63 - 1)) 1 7 :=
  ⟨_, _, _, rfl, rfl, rfl, rfl, rfl, rfl⟩

/-- The destination one past the last cell. -/
theorem witness_AddStoresWrappedSum_faults :
    firstFault (entered (boot 8 [1101, 1, 1, 8] [])) [(.immediate, .source), (.immediate, .source), (.position, .dest)] 1 =
      some (.address 8, 4) := by decide

theorem witness_MulStoresWrappedProduct_runs :
    runsRRW (entered (boot 8 [22202, 1, 2, 7] [])) .relative .relative .relative 1 2 7 :=
  ⟨_, _, _, rfl, rfl, rfl, rfl, rfl, rfl⟩

/-- The second source has no mode. -/
theorem witness_MulStoresWrappedProduct_faults :
    firstFault (entered (boot 8 [3102, 1, 2, 7] [])) [(.immediate, .source), (.reserved 3, .source), (.position, .dest)] 1 =
      some (.mode (.reserved 3), 3) := by decide

/-- The relation holds, and does not hold. -/
theorem witness_LessThanStoresTruth_runs :
    runsRRW (entered (boot 8 [1107, -1, 0, 0] [])) .immediate .immediate .position (-1) 0 0 ∧
    runsRRW (entered (boot 8 [1107, 0, 0, 7] [])) .immediate .immediate .position 0 0 7 :=
  ⟨⟨_, _, _, rfl, rfl, rfl, rfl, rfl, rfl⟩, _, _, _, rfl, rfl, rfl, rfl, rfl, rfl⟩

/-- The destination is Immediate. -/
theorem witness_LessThanStoresTruth_faults :
    firstFault (entered (boot 8 [11107, 1, 2, 0] [])) [(.immediate, .source), (.immediate, .source), (.immediate, .dest)] 1 =
      some (.mode .immediate, 4) := by decide

theorem witness_EqualsStoresTruth_runs :
    runsRRW (entered (boot 8 [1108, 5, 5, 7] [])) .immediate .immediate .position 5 5 7 ∧
    runsRRW (entered (boot 8 [1108, 5, 6, 0] [])) .immediate .immediate .position 5 6 0 :=
  ⟨⟨_, _, _, rfl, rfl, rfl, rfl, rfl, rfl⟩, _, _, _, rfl, rfl, rfl, rfl, rfl, rfl⟩

/-- The last operand cell is outside memory: `pc` stays at it. -/
theorem witness_EqualsStoresTruth_faults :
    firstFault (entered (boot 3 [1108, 1, 2] [])) [(.immediate, .source), (.immediate, .source), (.position, .dest)] 1 =
      some (.address 3, 3) := by decide

theorem witness_InputFollowsItsOrder_operandFault :
    cellAt (entered (boot 1 [3] [7])) (entered (boot 1 [3] [7])).pc = none := by decide

theorem witness_InputFollowsItsOrder_blocks : cellAt (entered (boot 4 [3, 0] [])) 1 = some 0 ∧
    (entered (boot 4 [3, 0] [])).inq = [] ∧ (entered (boot 4 [3, 0] [])).config.hasProducer = false := by decide

/-- The last cell as destination, and the first address past it. -/
theorem witness_InputFollowsItsOrder_queue : cellAt (entered (boot 4 [3, 3] [7])) 1 = some 3 ∧
    (entered (boot 4 [3, 3] [7])).inq = [7] ∧ paramCell (entered (boot 4 [3, 3] [7])) .position 3 = some 3 := by decide

theorem witness_InputFollowsItsOrder_queueFault : cellAt (entered (boot 4 [3, 4] [7])) 1 = some 4 ∧
    (entered (boot 4 [3, 4] [7])).inq = [7] ∧
    paramFault (entered (boot 4 [3, 4] [7])) .position .dest 4 = some (.address 4) := by decide

/-- With a producer attached. -/
def producing (s : State) : State := attachProducer 1 s

theorem witness_InputFollowsItsOrder_producer : cellAt (producing (entered (boot 4 [3, 3] []))) 1 = some 3 ∧
    (producing (entered (boot 4 [3, 3] []))).inq = [] ∧
    (producing (entered (boot 4 [3, 3] []))).config.hasProducer = true ∧
    paramCell (producing (entered (boot 4 [3, 3] []))) .position 3 = some 3 := by decide

theorem witness_InputFollowsItsOrder_producerFault : cellAt (producing (entered (boot 4 [3, 4] []))) 1 = some 4 ∧
    (producing (entered (boot 4 [3, 4] []))).inq = [] ∧
    (producing (entered (boot 4 [3, 4] []))).config.hasProducer = true ∧
    paramFault (producing (entered (boot 4 [3, 4] []))) .position .dest 4 = some (.address 4) := by decide

/-- BlockedInputIsRetried and BlockedRunNeverReturns. -/
theorem witness_BlockedInputIsRetried : (boot 4 [3, 3] []).status ≠ .halted ∧ cellAt (boot 4 [3, 3] []) 0 = some 3 ∧
    decode 3 = .ok (.input .position) ∧ cellAt (boot 4 [3, 3] []) ((boot 4 [3, 3] []).pc + 1) = some 3 ∧
    (boot 4 [3, 3] []).inq = [] ∧ (boot 4 [3, 3] []).config.hasProducer = false ∧
    paramCell (boot 4 [3, 3] []) .position 3 = some 3 := by decide

/-- The three rows of the table: a value queued (also beside a producer), a producer only, neither. -/
theorem witness_InputArbitration :
    (cellAt (producing (entered (boot 4 [3, 3] [7]))) 1 = some 3 ∧
      paramCell (producing (entered (boot 4 [3, 3] [7]))) .position 3 = some 3 ∧
      (producing (entered (boot 4 [3, 3] [7]))).inq = [7]) ∧
    (cellAt (producing (entered (boot 4 [3, 3] []))) 1 = some 3 ∧
      paramCell (producing (entered (boot 4 [3, 3] []))) .position 3 = some 3 ∧
      (producing (entered (boot 4 [3, 3] []))).inq = [] ∧
      (producing (entered (boot 4 [3, 3] []))).config.hasProducer = true) ∧
    (cellAt (entered (boot 4 [3, 3] [])) 1 = some 3 ∧ (entered (boot 4 [3, 3] [])).inq = [] ∧
      (entered (boot 4 [3, 3] [])).config.hasProducer = false) := by decide

/-- With a consumer attached. -/
def consuming (s : State) : State := attachConsumer s

theorem witness_OutputEmitsValue_queue : runsR (entered (boot 4 [4, 3, 99, 77] [])) .position 77 ∧
    (entered (boot 4 [4, 3, 99, 77] [])).config.hasConsumer = false := ⟨⟨_, rfl, rfl⟩, by decide⟩

theorem witness_OutputEmitsValue_consumer : runsR (consuming (entered (boot 4 [4, 3, 99, 77] []))) .position 77 ∧
    (consuming (entered (boot 4 [4, 3, 99, 77] []))).config.hasConsumer = true := ⟨⟨_, rfl, rfl⟩, by decide⟩

theorem witness_OutputEmitsValue_faults :
    firstFault (entered (boot 4 [4, 4] [])) [(.position, .source)] 1 = some (.address 4, 2) := by decide

/-- Taken and not taken. -/
theorem witness_JumpIfTrueJumpsOnNonzero_runs :
    runsRR (entered (boot 4 [1105, -1, 3] [])) .immediate .immediate (-1) 3 ∧
    runsRR (entered (boot 4 [1105, 0, -1] [])) .immediate .immediate 0 (-1) :=
  ⟨⟨_, _, rfl, rfl, rfl, rfl⟩, _, _, rfl, rfl, rfl, rfl⟩

theorem witness_JumpIfTrueJumpsOnNonzero_faults :
    firstFault (entered (boot 4 [405, 0, 0] [])) [(.reserved 4, .source), (.position, .source)] 1 =
      some (.mode (.reserved 4), 2) := by decide

theorem witness_JumpIfFalseJumpsOnZero_runs :
    runsRR (entered (boot 4 [1106, 0, 3] [])) .immediate .immediate 0 3 ∧
    runsRR (entered (boot 4 [1106, 5, 3] [])) .immediate .immediate 5 3 :=
  ⟨⟨_, _, rfl, rfl, rfl, rfl⟩, _, _, rfl, rfl, rfl, rfl⟩

/-- The second operand cell is outside memory. -/
theorem witness_JumpIfFalseJumpsOnZero_faults :
    firstFault (entered (boot 2 [6, 0] [])) [(.position, .source), (.position, .source)] 1 = some (.address 2, 2) := by decide

theorem witness_AdjustAddsToRelativeBase_runs : runsR (entered (boot 4 [209, 0] [])) .relative 209 := ⟨_, rfl, rfl⟩

theorem witness_AdjustAddsToRelativeBase_faults :
    firstFault (entered (boot 4 [909, 0] [])) [(.reserved 9, .source)] 1 = some (.mode (.reserved 9), 2) := by decide

/-- HaltStopsTheCore, its last clause: an operation on a halted core (vector HO3), and a reset of one. -/
theorem witness_HaltStopsTheCore : ∃ r y q z,
    (Session.mk ((boot 4 [99] []).setStatus .halted) false).core.status = .halted ∧
    hostApply (.push 5) (Session.mk ((boot 4 [99] []).setStatus .halted) false) = some (r, y) ∧ y.core.status = .halted ∧
    hostApply .reset (Session.mk ((boot 4 [99] []).setStatus .halted) false) = some (q, z) ∧ z.core.status = .running :=
  ⟨_, _, _, _, by decide, rfl, by decide, rfl, by decide⟩

/-- A condition of each kind. -/
theorem witness_JumpsAreComplementary :
    runsRR (entered (boot 4 [1105, 1, 3] [])) .immediate .immediate 1 3 ∧
    runsRR (entered (boot 4 [1105, 0, 3] [])) .immediate .immediate 0 3 :=
  ⟨⟨_, _, rfl, rfl, rfl, rfl⟩, _, _, rfl, rfl, rfl, rfl⟩

/-- Both jumps, taken to the first target above memory and to the first below. -/
theorem witness_JumpOutsideFaultsAtNextFetch :
    (runsRR (entered (boot 4 [1105, 1, 4] [])) .immediate .immediate 1 4 ∧ (1 : Word) ≠ 0 ∧
      ¬ (0 ≤ (4 : Word).toInt ∧ (4 : Word).toInt < (entered (boot 4 [1105, 1, 4] [])).config.memCells)) ∧
    (runsRR (entered (boot 4 [1106, 0, -1] [])) .immediate .immediate 0 (-1) ∧
      ¬ (0 ≤ (-1 : Word).toInt ∧ (-1 : Word).toInt < (entered (boot 4 [1106, 0, -1] [])).config.memCells)) :=
  ⟨⟨⟨_, _, rfl, rfl, rfl, rfl⟩, by decide, by decide⟩, ⟨_, _, rfl, rfl, rfl, rfl⟩, by decide⟩

/-- The destination is the cell after the instruction (program P3 of the spec). -/
theorem witness_StoreIsSeenByNextFetch :
    runsRRW (entered (boot 5 [1101, 98, 1, 4] [])) .immediate .immediate .position 98 1
      ((entered (boot 5 [1101, 98, 1, 4] [])).pc + 3).toNat :=
  ⟨_, _, _, rfl, rfl, rfl, rfl, rfl, rfl⟩

/-- The same for INPUT, from INQ and from the producer. -/
theorem witness_StoreIsSeenByNextFetch_input :
    (cellAt (entered (boot 4 [3, 2] [99])) 1 = some 2 ∧
      paramCell (entered (boot 4 [3, 2] [99])) .position 2 = some ((entered (boot 4 [3, 2] [99])).pc + 1).toNat ∧
      (entered (boot 4 [3, 2] [99])).inq.head? = some 99) ∧
    (cellAt (producing (entered (boot 4 [3, 2] []))) 1 = some 2 ∧
      paramCell (producing (entered (boot 4 [3, 2] []))) .position 2 =
        some ((producing (entered (boot 4 [3, 2] []))).pc + 1).toNat ∧
      (producing (entered (boot 4 [3, 2] []))).inq = [] ∧
      (producing (entered (boot 4 [3, 2] []))).config.hasProducer = true) := by decide

theorem witness_CompletedInstructionAdvancesPc : ∃ t, (Instr.mul .immediate .immediate .position).opcode ≠ 5 ∧
    (Instr.mul .immediate .immediate .position).opcode ≠ 6 ∧
    exec (.mul .immediate .immediate .position) (entered (boot 8 [1102, 4, 5, 7] [])) = .next t ∧ t.status = .running :=
  ⟨_, by decide, by decide, rfl, by decide⟩

/-- Each of the four instructions, one of them with a fault. -/
theorem witness_FrameOfStoringInstructions : ∃ t u v x,
    exec (.add .immediate .immediate .position) (entered (boot 8 [1101, 4, 5, 7] [])) = .next t ∧
    exec (.mul .immediate .immediate .position) (entered (boot 8 [1102, 4, 5, 7] [])) = .next u ∧
    exec (.lessThan .immediate .immediate .position) (entered (boot 8 [1107, 4, 5, 7] [])) = .next v ∧
    exec (.equals .immediate .immediate .immediate) (entered (boot 8 [11108, 4, 5, 7] [])) = .next x ∧
    t.status = .running ∧ x.fcause = .addressFault :=
  ⟨_, _, _, _, rfl, rfl, rfl, rfl, by decide, by decide⟩

/-- Each of the five instructions, one of them with a fault. -/
theorem witness_FrameOfNonStoringInstructions : ∃ t u v x y,
    exec (.output .immediate) (entered (boot 4 [104, 4] [])) = .next t ∧
    exec (.jumpIfTrue .immediate .immediate) (entered (boot 4 [1105, 4, 5] [])) = .next u ∧
    exec (.jumpIfFalse .immediate .immediate) (entered (boot 4 [1106, 4, 5] [])) = .next v ∧
    exec (.adjustRelativeBase .position) (entered (boot 4 [9, 4] [])) = .next x ∧
    exec .halt (entered (boot 4 [99] [])) = .next y ∧ t.status = .running ∧ x.fcause = .addressFault ∧ y.status = .halted :=
  ⟨_, _, _, _, _, rfl, rfl, rfl, rfl, rfl, by decide, by decide, by decide⟩

/-- INPUT completes, blocks, and faults. -/
theorem witness_FrameOfInput : ∃ t u v,
    exec (.input .position) (entered (boot 4 [3, 3] [7])) = .next t ∧ t.status = .running ∧
    exec (.input .position) (entered (boot 4 [3, 3] [])) = .next u ∧ u.status = .awaitingInput ∧
    exec (.input .position) (entered (boot 4 [3, 4] [7])) = .next v ∧ v.status = .halted :=
  ⟨_, _, _, rfl, by decide, rfl, by decide, rfl, by decide⟩

theorem witness_OnlyAdjustWritesRelativeBase : ∃ t, step (boot 4 [109, -5] []) = .next t ∧ t.rb ≠ (boot 4 [109, -5] []).rb :=
  ⟨_, rfl, by decide⟩

/-- A step that takes an input, and a step that emits an output. -/
theorem witness_OnlyIoTouchesQueues : ∃ t u, step (boot 4 [3, 3] [7]) = .next t ∧ t.inq = [] ∧
    step (boot 4 [104, 5] []) = .next u ∧ u.outq = [5] := ⟨_, _, rfl, by decide, rfl, by decide⟩

/-- A step that stores to the last cell, and one that stores nowhere. -/
theorem witness_StepStoresOnlyAtDestination : ∃ t u, step (boot 8 [1101, 4, 5, 7] []) = .next t ∧
    t.mem ≠ (boot 8 [1101, 4, 5, 7] []).mem ∧ step (boot 8 [104, 5] []) = .next u ∧ u.mem = (boot 8 [104, 5] []).mem :=
  ⟨_, _, rfl, by decide, rfl, by decide⟩

/-- An INPUT that loses its value. -/
theorem witness_FaultLeavesMemoryAndBase : ∃ t, (boot 4 [103, 3] [7]).fcause = .none ∧
    step (boot 4 [103, 3] [7]) = .next t ∧ t.fcause ≠ .none ∧ t.inq = (boot 4 [103, 3] [7]).inq.tail :=
  ⟨_, by decide, rfl, by decide, by decide⟩

/-- The four causes: a fetch outside memory, a parameter, a word outside the set, and none (an INPUT that blocks before its
Immediate destination is tested, vector IN8). -/
theorem witness_FaultCauses : ∃ t u v x,
    ((boot 4 [] []).setPc 4).status ≠ .halted ∧ ((boot 4 [] []).setPc 4).fcause = .none ∧
    step ((boot 4 [] []).setPc 4) = .next t ∧ t.fcause = .addressFault ∧
    (boot 4 [304] []).fcause = .none ∧ step (boot 4 [304] []) = .next u ∧ u.fcause = .addressFault ∧
    (boot 4 [0] []).fcause = .none ∧ step (boot 4 [0] []) = .next v ∧ v.fcause = .unknownOpcode ∧
    (boot 4 [103, 0] []).fcause = .none ∧ step (boot 4 [103, 0] []) = .next x ∧ x.fcause = .none ∧
      x.status = .awaitingInput :=
  ⟨_, _, _, _, by decide, by decide, rfl, by decide, by decide, rfl, by decide, by decide, rfl, by decide, by decide, rfl,
    by decide, by decide⟩

/-- FaultCauses (b) to (e), at the edges of memory: the parameter's mode and operand, and the step that faults. -/
theorem witness_FaultCauses_forms : ∃ t u v x,
    step (boot 4 [4, 4] []) = .next t ∧ t.fcause = .addressFault ∧
    step ((boot 4 [204, 1] []).setRb (-2)) = .next u ∧ u.fcause = .addressFault ∧
    (wrap ((-2 : Word).toInt + (1 : Word).toInt)).toInt < 0 ∧
    step (boot 5 [11101, 1, 1, 0] []) = .next v ∧ v.fcause = .addressFault ∧
    step (boot 4 [909, 0] []) = .next x ∧ x.fcause = .addressFault :=
  ⟨_, _, _, _, rfl, by decide, rfl, by decide, by decide, rfl, by decide, rfl, by decide⟩

theorem witness_OnlyBlockedInputAwaits : ∃ t, step (boot 4 [3, 3] []) = .next t ∧ t.status = .awaitingInput :=
  ⟨_, rfl, by decide⟩

/-- One above the largest Word. -/
theorem witness_WrapIsTheCongruentWord : (BitVec.ofInt 64 (-(2 ^ 63))).toInt % 2 ^ 64 = (2 ^ 63 : Int) % 2 ^ 64 := by decide

/-- The largest sum and the largest product a Word holds. -/
theorem witness_ResultsInRangeAreExact :
    ((9223372036854775806 : Word).toInt + (1 : Word).toInt ≤ 2 ^ 63 - 1 ∧
      -(2 ^ 63) ≤ (9223372036854775806 : Word).toInt + (1 : Word).toInt) ∧
    ((-1 : Word).toInt * (9223372036854775807 : Word).toInt ≤ 2 ^ 63 - 1 ∧
      -(2 ^ 63) ≤ (-1 : Word).toInt * (9223372036854775807 : Word).toInt) := by decide

/-- The least and the largest MEM_CELLS. -/
theorem witness_InvariantHoldsAtReset : ({ Config.initial with memCells := 1 } : Config).wf = true ∧
    ({ Config.initial with memCells := 2 ^ 63 - 1 } : Config).wf = true := by decide

/-- A core with memory in use, and a halted one with a fault cause. -/
theorem witness_StepKeepsInvariant : (boot 4 [1101, 4, 5, 3] [1]).inv = true ∧
    (raise .unknownOpcode (.word 0) (boot 4 [0] [])).inv = true := by decide

theorem witness_HostOperationsKeepInvariant : ∃ r y,
    (Session.mk (consuming (boot 4 [104, 5] [])) true).inv = true ∧
    hostApply .step (Session.mk (consuming (boot 4 [104, 5] [])) true) = some (r, y) := ⟨_, _, by decide, rfl⟩

/-- A program that fills memory (vector MC4). -/
theorem witness_LoadPlacesProgram : (words [1, 0, 0, 0, 99]).length ≤ (boot 5 [] []).config.memCells := by decide

/-- CapacityExceededWhenTooLong: both sides of the limit (vectors MC4, MC5). -/
theorem witness_CapacityExceededWhenTooLong :
    (loadProgram (words [1, 0, 0, 0, 99]) (boot 4 [] [])).2 = some .capacityExceeded ∧
    (loadProgram (words [1, 0, 0, 0, 99]) (boot 5 [] [])).2 = none := by decide

/-- FormatErrorOnBadToken: a text with a bad token (vector RS4), and one whose tokens are all Words. -/
theorem witness_FormatErrorOnBadToken :
    (∃ k ∈ splitCommas (trim "1,0,x,0".toList), signedToken (trim k) = none) ∧
    (splitCommas (trim "1,-2".toList)).map (fun k => signedToken (trim k)) = (words [1, -2]).map some := by decide

theorem witness_OutputHandleOperations : (boot 4 [] []).outq = [] ∧ ((boot 4 [] []).setOutq [1, 2, 3]).outq = 1 :: [2, 3] := by
  decide

/-- BlockingPopWaits: waiting, halted and empty, and not empty. -/
theorem witness_BlockingPopWaits :
    ((boot 4 [] []).outq = [] ∧ (boot 4 [] []).status ≠ .halted) ∧
    (((boot 4 [] []).setStatus .halted).outq = [] ∧ ((boot 4 [] []).setStatus .halted).status = .halted) ∧
    ((boot 4 [] []).setOutq [1]).outq = 1 :: [] := by decide

theorem witness_PushCommutesWithStep : ∃ t, (boot 4 [3, 3] [7]).inq ≠ [] ∧ step (boot 4 [3, 3] [7]) = .next t :=
  ⟨_, by decide, rfl⟩

theorem witness_RunEndsHalted : ∃ t, run 1 (boot 4 [99] []) = some t := ⟨_, rfl⟩

theorem witness_VerbosityHasNoEffect : ∃ t, step (boot 4 [104, 5] []) = .next t := ⟨_, rfl⟩

/-- Two states that differ in the records. -/
theorem witness_StepIgnoresRecords : ∃ t u, (boot 4 [104, 5] []).config.hasProducer = false ∧
    (boot 4 [104, 5] []).architectural = ((boot 4 [104, 5] []).setDelivered [1]).architectural ∧
    step (boot 4 [104, 5] []) = .next t ∧ step ((boot 4 [104, 5] []).setDelivered [1]) = .next u :=
  ⟨_, _, by decide, by decide, rfl, rfl⟩

/-- The program emits one value to a consumer and halts. -/
theorem witness_ResetLoadRunIsIdempotent : ∃ t, (consuming (boot 4 [] [])).config.hasProducer = false ∧
    run 2 (prepare (words [104, 5, 99]) (words [3]) (consuming (boot 4 [] []))) = some t ∧ t.delivered = [5] :=
  ⟨_, by decide, rfl, by decide⟩

/-- Two cores in a ring: the OUTQ of each is the INQ of the other. -/
def ring (p q : List Int) : System :=
  { instances := [⟨⟨boot 4 p [], false⟩, 0, 1⟩, ⟨⟨boot 4 q [], false⟩, 1, 0⟩], channels := [[5], [6]] }

theorem witness_OperationsOnOneCoreArePrivate : ∃ n r T, (ring [3, 3] [104, 7]).instances[1]? = some n ∧
    (ring [3, 3] [104, 7]).apply 1 .step = some (r, T) := ⟨_, _, _, rfl, rfl⟩

theorem witness_OutputReachesTheChannel : ∃ n, (ring [3, 3] [104, 7]).wired = true ∧
    (ring [3, 3] [104, 7]).instances[1]? = some n ∧ n.session.core.status ≠ .halted ∧
    n.session.core.config.hasConsumer = false ∧ cellAt n.session.core n.session.core.pc = some 104 ∧
    decode 104 = .ok (.output .immediate) ∧ runsR (n.session.core.setPc (n.session.core.pc + 1)) .immediate 7 :=
  ⟨_, by decide, rfl, by decide, by decide, by decide, by decide, _, rfl, rfl⟩

theorem witness_ResetEmptiesBothChannels : ∃ n, (ring [3, 3] [104, 7]).wired = true ∧
    (ring [3, 3] [104, 7]).instances[0]? = some n := ⟨_, by decide, rfl⟩

/-- One instance reads the channel the other writes. -/
theorem witness_StepsOfTwoCoresCommute : ∃ a b, (ring [3, 3] [104, 7]).wired = true ∧ (0 : Nat) ≠ 1 ∧
    (ring [3, 3] [104, 7]).instances[0]? = some a ∧ (ring [3, 3] [104, 7]).instances[1]? = some b ∧
    a.inChan ≠ b.inChan ∧ a.outChan ≠ b.outChan ∧ (ring [3, 3] [104, 7]).channel a.inChan ≠ [] ∧
    (ring [3, 3] [104, 7]).channel b.inChan ≠ [] :=
  ⟨_, _, by decide, by decide, rfl, rfl, by decide, by decide, by decide, by decide⟩

end Sys2Proof.Tests
end

section
/-! The opcode map (30_encoding.md R54). -/

namespace Sys2Proof

/-- An instruction is selected only by its own opcode. -/
theorem opcode_of_selectInstr {k : Nat} {m0 m1 m2 : Mode} {i : Instr} (h : selectInstr k m0 m1 m2 = .ok i) :
    k = i.opcode := by
  unfold selectInstr at h
  split at h <;> cases h <;> rfl

theorem mod_of_decode {w : Word} {i : Instr} (h : decode w = .ok i) : w.toNat % 100 = i.opcode :=
  opcode_of_selectInstr (decode_nonneg (nonneg_of_decode h) ▸ h)

theorem decode_of_mod {w : Word} {k : Nat} (h : 0 ≤ w.toInt) (hk : w.toNat % 100 = k) :
    decode w = selectInstr k (Mode.ofDigit (digit 2 w.toNat)) (Mode.ofDigit (digit 3 w.toNat))
      (Mode.ofDigit (digit 4 w.toNat)) :=
  hk ▸ decode_nonneg h

theorem opcode_mem (i : Instr) : i.opcode ∈ [1, 2, 3, 4, 5, 6, 7, 8, 9, 99] := by
  cases i <;> simp [Instr.opcode]

/-- Each of the ten opcodes selects some instruction, whatever the mode digits are. -/
theorem exists_selectInstr {k : Nat} (m0 m1 m2 : Mode) (hk : k ∈ [1, 2, 3, 4, 5, 6, 7, 8, 9, 99]) :
    ∃ i, selectInstr k m0 m1 m2 = .ok i := by
  simp only [List.mem_cons, List.not_mem_nil, or_false] at hk
  rcases hk with rfl | rfl | rfl | rfl | rfl | rfl | rfl | rfl | rfl | rfl <;> exact ⟨_, rfl⟩

/-- Settles O2. Each clause, left to right: a decoded instruction's opcode is `w mod 100`; right to left: the decoder
computes on that opcode. -/
theorem opcodeSelectsInstruction : Obligations.OpcodeSelectsInstruction := by
  intro w hw
  exact ⟨
    ⟨fun ⟨_, _, _, h⟩ => mod_of_decode h, fun hk => ⟨_, _, _, decode_of_mod hw hk⟩⟩,
    ⟨fun ⟨_, _, _, h⟩ => mod_of_decode h, fun hk => ⟨_, _, _, decode_of_mod hw hk⟩⟩,
    ⟨fun ⟨_, h⟩ => mod_of_decode h, fun hk => ⟨_, decode_of_mod hw hk⟩⟩,
    ⟨fun ⟨_, h⟩ => mod_of_decode h, fun hk => ⟨_, decode_of_mod hw hk⟩⟩,
    ⟨fun ⟨_, _, h⟩ => mod_of_decode h, fun hk => ⟨_, _, decode_of_mod hw hk⟩⟩,
    ⟨fun ⟨_, _, h⟩ => mod_of_decode h, fun hk => ⟨_, _, decode_of_mod hw hk⟩⟩,
    ⟨fun ⟨_, _, _, h⟩ => mod_of_decode h, fun hk => ⟨_, _, _, decode_of_mod hw hk⟩⟩,
    ⟨fun ⟨_, _, _, h⟩ => mod_of_decode h, fun hk => ⟨_, _, _, decode_of_mod hw hk⟩⟩,
    ⟨fun ⟨_, h⟩ => mod_of_decode h, fun hk => ⟨_, decode_of_mod hw hk⟩⟩,
    ⟨mod_of_decode, decode_of_mod hw⟩,
    ⟨fun ⟨i, h⟩ => mod_of_decode h ▸ opcode_mem i, fun hk => decode_nonneg hw ▸ exists_selectInstr _ _ _ hk⟩⟩

end Sys2Proof
end

section
/-! The step in Running and in AwaitingInput (40_execution_cycle.md R75). -/

namespace Sys2Proof.Machine

/-! ### STATUS on entry has no influence on an instruction -/

theorem agree_setStatus (x : Status) (s : State) : Agree s (s.setStatus x) :=
  ⟨rfl, rfl, rfl, rfl, rfl, rfl, rfl, fun _ _ => ⟨rfl, rfl⟩⟩

/-- The same change from two states that differ in STATUS only ends in one state, for a change pins STATUS. -/
theorem SameChange.eq_of_setStatus {x : Status} {s t t' : State} (h : SameChange s (s.setStatus x) t t') : t' = t := by
  obtain ⟨hmem, hpc, hrb, hstatus, hconfig, hconfig', hfcause, hinq, ⟨k, hcalls, hcalls'⟩, ⟨o, houtq, houtq'⟩,
    ⟨d, hdelivered, hdelivered'⟩, htrace⟩ := h
  obtain ⟨l, hl, hl'⟩ := htrace rfl
  have hfc : t'.fcause = t.fcause := hfcause.elim (fun ⟨h, h'⟩ => h'.trans h.symm) id
  have hin : t'.inq = t.inq := hinq.elim (fun ⟨h, h'⟩ => h'.trans h.symm) (fun ⟨h, h'⟩ => h'.trans h.symm)
  cases t
  cases t'
  rw [State.mk.injEq]
  exact ⟨hmem, hpc, hrb, hstatus, hfc, hin, houtq'.trans houtq.symm, hconfig'.trans hconfig.symm,
    hcalls'.trans hcalls.symm, hdelivered'.trans hdelivered.symm, hl'.trans hl.symm⟩

@[simp] theorem exec_setStatus (i : Instr) (x : Status) (s : State) : exec i (s.setStatus x) = exec i s := by
  obtain ⟨t, ht⟩ := exec_answers_next i s
  obtain ⟨t', ht', hc⟩ := exec_local (agree_setStatus x s) ht
  rw [ht, ht', hc.eq_of_setStatus]

@[simp] theorem operandCells_setStatus (x : Status) (s : State) (p : Word) (n : Nat) :
    operandCells (s.setStatus x) p n = operandCells s p n := by
  induction n generalizing p with
  | zero => rfl
  | succ n ih => simp only [operandCells, ih, setStatus_mem]

@[simp] theorem executedLine_setStatus (i : Instr) (x : Status) (s t : State) :
    executedLine i (s.setStatus x) t = executedLine i s t := by
  simp only [executedLine, setStatus_config, setStatus_pc, operandCells_setStatus]

@[simp] theorem traceExecuted_setStatus (i : Instr) (x : Status) (s : State) (o : Host.Outcome State Fault Refusal) :
    traceExecuted i (s.setStatus x) o = traceExecuted i s o := by
  cases o <;> simp only [traceExecuted, executedLine_setStatus]

theorem setPc_setStatus (p : Word) (x : Status) (s : State) : (s.setStatus x).setPc p = (s.setPc p).setStatus x := rfl

/-- A step asks of STATUS only whether it is Halted. -/
theorem step_setStatus {x y : Status} (hx : x ≠ .halted) (hy : y ≠ .halted) (s : State) :
    step (s.setStatus x) = step (s.setStatus y) := by
  rcases step_cases (s.setStatus y) with ⟨h, _⟩ | ⟨_, he, h⟩ | ⟨_, w, e, hw, hd, h⟩ | ⟨_, w, i, hw, hi, h⟩
  · exact absurd h hy
  · rw [h]; exact step_of_bad_fetch hx he
  · rw [h]; exact step_of_undecoded hx hw hd
  · rw [h, step_of_decoded (s := s.setStatus x) hx hw hi]
    simp only [setStatus_pc, setPc_setStatus, exec_setStatus, traceExecuted_setStatus]

/-- A decoded instruction's own next state is the step's, but for the trace. -/
theorem step_eq_exec_of_decoded {s : State} {w : Word} {i : Instr} (h : s.status ≠ .halted)
    (hw : cellAt s s.pc = some w) (hi : decode w = .ok i) :
    ∃ t u, exec i (s.setPc (s.pc + 1)) = .next t ∧ step s = .next u ∧ { u with trace := t.trace } = t := by
  obtain ⟨t, ht⟩ := exec_answers_next i (s.setPc (s.pc + 1))
  have hs : step s = .next (t.setTrace (t.trace ++ executedLine i (s.setPc (s.pc + 1)) t)) := by
    rw [step_of_decoded h hw hi, ht, traceExecuted]
  exact ⟨t, _, ht, hs, rfl⟩

/-! ### Only a blocked INPUT leaves AwaitingInput -/

theorem finish_storeResult_not_awaiting {f : Word → Word → Word} {m0 m1 m2 : Mode} {s t : State}
    (h : finish (storeResult f m0 m1 m2 s) = .next t) : t.status ≠ .awaitingInput := by
  rcases finish_storeResult_cases f m0 m1 m2 s with ⟨_, _, _, _, k⟩ | ⟨_, _, _, k⟩ <;> cases h.symm.trans k <;> nofun

theorem finish_jumpWhen_not_awaiting {taken : Word → Bool} {m0 m1 : Mode} {s t : State}
    (h : finish (jumpWhen taken m0 m1 s) = .next t) : t.status ≠ .awaitingInput := by
  rcases finish_jumpWhen_cases taken m0 m1 s with ⟨_, _, _, k⟩ | ⟨_, _, _, k⟩ <;> cases h.symm.trans k <;> nofun

/-- R88: an instruction that leaves AwaitingInput is an INPUT without a value, and goes back to its own word. -/
theorem exec_awaiting {i : Instr} {s t : State} (h : exec i s = .next t) (ht : t.status = .awaitingInput) :
    ∃ m0, i = .input m0 ∧ inputAvailable s = false ∧ t = { s with pc := s.pc - 1, status := .awaitingInput } := by
  cases i with
  | add m0 m1 m2 => exact absurd ht (finish_storeResult_not_awaiting h)
  | mul m0 m1 m2 => exact absurd ht (finish_storeResult_not_awaiting h)
  | lessThan m0 m1 m2 => exact absurd ht (finish_storeResult_not_awaiting h)
  | equals m0 m1 m2 => exact absurd ht (finish_storeResult_not_awaiting h)
  | jumpIfTrue m0 m1 => exact absurd ht (finish_jumpWhen_not_awaiting h)
  | jumpIfFalse m0 m1 => exact absurd ht (finish_jumpWhen_not_awaiting h)
  | output m0 => rcases execOutput_cases m0 s with ⟨_, _, k⟩ | ⟨_, _, _, k⟩ <;> cases h.symm.trans k <;> cases ht
  | adjustRelativeBase m0 =>
    rcases execAdjustRelativeBase_cases m0 s with ⟨_, _, k⟩ | ⟨_, _, _, k⟩ <;> cases h.symm.trans k <;> cases ht
  | halt => cases h; cases ht
  | input m0 =>
    rcases execInput_cases m0 s with ⟨_, k⟩ | ⟨_, _, ha, k⟩ | ⟨_, _, _, _, _, k⟩ | ⟨_, _, _, _, _, k⟩ <;>
      cases h.symm.trans k
    · cases ht
    · exact ⟨m0, rfl, ha, rfl⟩
    · cases ht
    · cases ht

theorem step_awaiting_pc {s t : State} (hs : s.status ≠ .halted) (h : step s = .next t)
    (ht : t.status = .awaitingInput) : t.pc = s.pc := by
  rcases step_next_cases h with ⟨hh, _⟩ | ⟨_, _, rfl⟩ | ⟨_, _, _, _, _, rfl⟩ | ⟨_, _, i, u, _, _, hu, rfl⟩
  · exact absurd hh hs
  · cases ht
  · cases ht
  · obtain ⟨_, _, _, rfl⟩ := exec_awaiting hu ht
    exact BitVec.add_sub_cancel s.pc 1

/-- Settles O12: both states reach the same case of the step, and the only case that leaves AwaitingInput puts `pc` back. -/
theorem awaitingInputStepsLikeRunning : Obligations.AwaitingInputStepsLikeRunning :=
  ⟨step_setStatus (by decide) (by decide),
    fun s x _ _ hx hw hi =>
      step_eq_exec_of_decoded (s := s.setStatus x) (by rcases hx with rfl | rfl <;> simp) hw hi,
    fun _ _ => step_awaiting_pc⟩

end Sys2Proof.Machine
end

section
/-! ADD and MUL (41_arithmetic.md R82, R83): the two instances of format RRW whose result is an exact sum or product
reduced by `wrap`. What they share with every RRW instruction, the encoding and the two ways to end, is said once. -/

namespace Sys2Proof

/-- R53, R54: the words of an RRW instruction `c` are the non-negative ones with the opcode that selects it. -/
theorem decodes_to_rrw_iff {c : Mode → Mode → Mode → Instr} {k : Nat}
    (hc : ∀ m0 m1 m2, selectInstr k m0 m1 m2 = .ok (c m0 m1 m2)) (w : Word) :
    (∃ m0 m1 m2, decode w = .ok (c m0 m1 m2)) ↔ 0 ≤ w.toInt ∧ w.toNat % 100 = k := by
  constructor
  · rintro ⟨m0, m1, m2, h⟩
    exact ⟨nonneg_of_decode h, (mod_of_decode h).trans (opcode_of_selectInstr (hc m0 m1 m2)).symm⟩
  · rintro ⟨hw, hk⟩
    exact ⟨_, _, _, (decode_of_mod hw hk).trans (hc _ _ _)⟩

namespace Machine

theorem exec_add (m0 m1 m2 : Mode) (s : State) :
    exec (.add m0 m1 m2) s = finish (storeResult (fun a b => wrap (a.toInt + b.toInt)) m0 m1 m2 s) := rfl

theorem exec_mul (m0 m1 m2 : Mode) (s : State) :
    exec (.mul m0 m1 m2) s = finish (storeResult (fun a b => wrap (a.toInt * b.toInt)) m0 m1 m2 s) := rfl

/-- R67, R81: an instruction that stores a result of two sources ends in one of two ways: it stores the result and goes
past its operands, or it takes the first fault its parameters meet. -/
theorem rrw_ends {i : Instr} {f : Word → Word → Word} {m0 m1 m2 : Mode} {s : State}
    (hi : exec i s = finish (storeResult f m0 m1 m2 s)) :
    (∀ a b d, runsRRW s m0 m1 m2 a b d →
      exec i s = .next { s with mem := Memory.write d (f a b) s.mem, pc := s.pc + 3, status := .running }) ∧
    (∀ e p, firstFault s [(m0, .source), (m1, .source), (m2, .dest)] s.pc = some (e, p) →
      exec i s = .next (raise .addressFault e { s with pc := p })) :=
  ⟨fun _ _ _ hruns => hi.trans (finish_storeResult_of_runs f hruns),
    fun _ _ hfault => hi.trans (finish_storeResult_of_fault f hfault)⟩

/-- Settles O13: ADD is the RRW instruction that opcode 1 selects, with the wrapped sum as its result. -/
theorem addStoresWrappedSum : Obligations.AddStoresWrappedSum :=
  ⟨decodes_to_rrw_iff fun _ _ _ => rfl, fun m0 m1 m2 s => rrw_ends (exec_add m0 m1 m2 s)⟩

/-- Settles O14: MUL is the RRW instruction that opcode 2 selects, with the wrapped product as its result. -/
theorem mulStoresWrappedProduct : Obligations.MulStoresWrappedProduct :=
  ⟨decodes_to_rrw_iff fun _ _ _ => rfl, fun m0 m1 m2 s => rrw_ends (exec_mul m0 m1 m2 s)⟩

end Machine
end Sys2Proof
end

section
/-! INPUT and OUTPUT (42_io.md): their encoding, and what INPUT takes from which source (R90). -/

namespace Sys2Proof

/-- R53, R54: the words of a format R instruction `c` are the non-negative ones with the opcode that selects it. -/
theorem decodes_to_r_iff {c : Mode → Instr} {k : Nat} (hc : ∀ m0 m1 m2, selectInstr k m0 m1 m2 = .ok (c m0))
    (w : Word) : (∃ m0, decode w = .ok (c m0)) ↔ 0 ≤ w.toInt ∧ w.toNat % 100 = k := by
  constructor
  · rintro ⟨m0, h⟩
    exact ⟨nonneg_of_decode h, (mod_of_decode h).trans (opcode_of_selectInstr (hc m0 m0 m0)).symm⟩
  · rintro ⟨hw, hk⟩
    exact ⟨_, (decode_of_mod hw hk).trans (hc _ _ _)⟩

namespace Machine

/-! ### The source of the value (R90, R91) -/

theorem inputAvailable_of_queued {s : State} {v : Word} {q : List Word} (h : s.inq = v :: q) :
    inputAvailable s = true := by
  simp [inputAvailable, h]

theorem inputAvailable_of_empty {s : State} (h : s.inq = []) : inputAvailable s = s.config.hasProducer := by
  simp [inputAvailable, h]

theorem takeInput_of_queued {s : State} {v : Word} {q : List Word} (h : s.inq = v :: q) :
    takeInput s = (v, s.setInq q) := by
  simp [takeInput, h]

theorem takeInput_of_empty {s : State} (h : s.inq = []) : takeInput s =
    (Config.producerWord s.config.producerId s.producerCalls, s.setProducerCalls (s.producerCalls + 1)) := by
  simp [takeInput, h]

/-! ### The ends of INPUT (R87), with the value and the state the source gives -/

theorem exec_input (m0 : Mode) (s : State) : exec (.input m0) s = execInput m0 s := rfl

theorem exec_output (m0 : Mode) (s : State) : exec (.output m0) s = execOutput m0 s := rfl

theorem exists_paramFault_of_paramCell_none {s : State} {m : Mode} {o : Word} (h : paramCell s m o = none) :
    ∃ e, paramFault s m .dest o = some e := by
  rcases destination_cases s m o with ⟨d, hd, _⟩ | ⟨e, _, he, _⟩
  · rw [h] at hd; cases hd
  · exact ⟨e, he⟩

section Ends

variable {m0 : Mode} {s : State} {o : Word} (ho : cellAt s s.pc = some o)
include ho

theorem exec_input_blocks (hq : s.inq = []) (hp : s.config.hasProducer = false) :
    exec (.input m0) s = .next { s with pc := s.pc - 1, status := .awaitingInput } :=
  execInput_of_blocked ho ((inputAvailable_of_empty hq).trans hp)

theorem exec_input_stores {v : Word} {u : State} {d : Nat} (ha : inputAvailable s = true)
    (ht : takeInput s = (v, u)) (hd : paramCell s m0 o = some d) :
    exec (.input m0) s = .next { u with mem := Memory.write d v u.mem, pc := s.pc + 1, status := .running } := by
  rw [exec_input, execInput_of_taken ho ha hd, ht]
  rfl

theorem exec_input_loses {v : Word} {u : State} {e : FaultInfo} (ha : inputAvailable s = true)
    (ht : takeInput s = (v, u)) (he : paramFault s m0 .dest o = some e) :
    exec (.input m0) s = .next (raise .addressFault e (u.setPc (s.pc + 1))) := by
  rw [exec_input, execInput_of_fault ho ha he, ht]

/-- R89, R90: with a source, INPUT takes the value from it whatever the destination is, and stores that value where the
destination names a cell. -/
theorem exec_input_takes {v : Word} {u : State} (ha : inputAvailable s = true) (ht : takeInput s = (v, u)) :
    ∃ t, exec (.input m0) s = .next t ∧ t.inq = u.inq ∧ t.producerCalls = u.producerCalls ∧
      ∀ d, paramCell s m0 o = some d → t.status = .running ∧ Memory.read d t.mem = v := by
  cases hd : paramCell s m0 o with
  | some d =>
    refine ⟨_, exec_input_stores ho ha ht hd, rfl, rfl, fun d' hd' => ?_⟩
    cases hd'
    exact ⟨rfl, read_write_same d v u.mem⟩
  | none =>
    obtain ⟨e, he⟩ := exists_paramFault_of_paramCell_none hd
    exact ⟨_, exec_input_loses ho ha ht he, rfl, rfl, nofun⟩

end Ends

/-- Settles O17: an INPUT whose operand can be read blocks, stores or loses the value, and the source that has it is INQ
or, when INQ is empty, the producer. -/
theorem inputFollowsItsOrder : Obligations.InputFollowsItsOrder := by
  refine ⟨decodes_to_r_iff fun _ _ _ => rfl, fun m0 s => ⟨?_, ?_, ?_, ?_, ?_, ?_⟩⟩
  · exact execInput_of_bad_fetch
  · exact fun o ho hq hp => exec_input_blocks ho hq hp
  · exact fun o v q d ho hq hd => exec_input_stores ho (inputAvailable_of_queued hq) (takeInput_of_queued hq) hd
  · exact fun o v q e ho hq he => exec_input_loses ho (inputAvailable_of_queued hq) (takeInput_of_queued hq) he
  · exact fun o d ho hq hp hd =>
      exec_input_stores ho ((inputAvailable_of_empty hq).trans hp) (takeInput_of_empty hq) hd
  · exact fun o e ho hq hp he =>
      exec_input_loses ho ((inputAvailable_of_empty hq).trans hp) (takeInput_of_empty hq) he

/-- Settles O19: the three rows of the table, by INQ and, when it is empty, by the producer. -/
theorem inputArbitration : Obligations.InputArbitration := by
  intro m0 s o ho
  cases hq : s.inq with
  | cons v q =>
    obtain ⟨t, ht, hinq, hcalls, hcell⟩ :=
      exec_input_takes (m0 := m0) ho (inputAvailable_of_queued hq) (takeInput_of_queued hq)
    refine ⟨t, ht, ?_, nofun, nofun⟩
    rintro _ _ ⟨⟩
    exact ⟨hinq, hcalls, fun d hd => (hcell d hd).symm⟩
  | nil =>
    cases hp : s.config.hasProducer with
    | true =>
      obtain ⟨t, ht, hinq, hcalls, hcell⟩ :=
        exec_input_takes (m0 := m0) ho ((inputAvailable_of_empty hq).trans hp) (takeInput_of_empty hq)
      exact ⟨t, ht, nofun, fun _ _ => ⟨hinq.trans hq, hcalls, hcell⟩, nofun⟩
    | false => exact ⟨_, exec_input_blocks ho hq hp, nofun, nofun, fun _ _ => ⟨hq, rfl, rfl, rfl⟩⟩

/-! ### A blocked INPUT and its retry (R88) -/

/-- An instruction that blocked is not executed: no trace line (log 7). -/
theorem executedLine_of_awaiting {i : Instr} {s t : State} (ht : t.status = .awaitingInput) :
    executedLine i s t = [] := by
  cases hv : s.config.verbosity <;> simp [executedLine, completed, hv, ht]

section Steps

variable {s : State} {w o : Word} {m0 : Mode} (hs : s.status ≠ .halted) (hw : cellAt s s.pc = some w)
  (hi : decode w = .ok (.input m0)) (ho : cellAt s (s.pc + 1) = some o)
include hs hw hi ho

theorem step_of_blocked_input (hq : s.inq = []) (hp : s.config.hasProducer = false) :
    step s = .next (s.setStatus .awaitingInput) := by
  have hx : exec (.input m0) (s.setPc (s.pc + 1)) = .next (s.setStatus .awaitingInput) := by
    rw [exec_input_blocks (s := s.setPc (s.pc + 1)) ho hq hp, setPc_pc, BitVec.add_sub_cancel]
    rfl
  rw [step_of_decoded hs hw hi, hx, traceExecuted, executedLine_of_awaiting rfl, List.append_nil]
  rfl

/-- The trace aside, for a step that completes emits the instruction's line. -/
theorem step_of_queued_input {v : Word} {q : List Word} {d : Nat} (hq : s.inq = v :: q)
    (hd : paramCell s m0 o = some d) : ∃ u, step s = .next u ∧ { u with trace := s.trace } =
      { s with mem := Memory.write d v s.mem, pc := s.pc + 2, inq := q, status := .running } := by
  obtain ⟨t, u, ht, hu, htrace⟩ := step_eq_exec_of_decoded hs hw hi
  rw [exec_input_stores (s := s.setPc (s.pc + 1)) ho (inputAvailable_of_queued hq) (takeInput_of_queued hq) hd,
    setPc_pc, pc_add_two] at ht
  cases ht
  exact ⟨u, hu, htrace⟩

end Steps

/-- Settles O18: blocking changes STATUS alone, so the blocked state blocks again, and after the push it is a state with
one queued value. -/
theorem blockedInputIsRetried : Obligations.BlockedInputIsRetried := by
  intro s w o m0 hs hw hi ho hq hp
  have hb : (s.setStatus .awaitingInput).status ≠ .halted := nofun
  refine ⟨_, _, step_of_blocked_input hs hw hi ho hq hp, rfl,
    step_of_blocked_input (s := s.setStatus .awaitingInput) hb hw hi ho hq hp, rfl, fun v d hd => ?_⟩
  have hpush : (pushInput v (s.setStatus .awaitingInput)).inq = [v] := congrArg (· ++ [v]) hq
  obtain ⟨t, ht, hframe⟩ := step_of_queued_input (s := pushInput v (s.setStatus .awaitingInput)) hb hw hi ho hpush hd
  rw [State.mk.injEq] at hframe
  obtain ⟨hmem, hpc, hrb, hstatus, hfcause, hinq, houtq, hconfig, -⟩ := hframe
  exact ⟨t, ht, hmem, hpc, hinq, hstatus, hrb, houtq, hfcause, hconfig⟩

/-! ### OUTPUT (R93, R94) -/

theorem emit_to_queue {s : State} (h : s.config.hasConsumer = false) (v : Word) :
    emit v s = s.setOutq (s.outq ++ [v]) := by
  simp [emit, h]

theorem emit_to_consumer {s : State} (h : s.config.hasConsumer = true) (v : Word) :
    emit v s = s.setDelivered (s.delivered ++ [v]) := by
  simp [emit, h]

/-- Settles O20: OUTPUT reads its source or faults, and the sink depends on the consumer alone. -/
theorem outputEmitsValue : Obligations.OutputEmitsValue := by
  refine ⟨decodes_to_r_iff fun _ _ _ => rfl, fun m0 s => ⟨?_, ?_, ?_⟩⟩
  · intro a ha hc
    rw [exec_output, execOutput_of_runs ha, emit_to_queue (s := s.setPc (s.pc + 1)) hc]
    rfl
  · intro a ha hc
    rw [exec_output, execOutput_of_runs ha, emit_to_consumer (s := s.setPc (s.pc + 1)) hc]
    rfl
  · exact fun e p hf => execOutput_of_fault hf

end Machine
end Sys2Proof
end

section
/-! The two jumps (43_jumps.md R99 to R101): the two instances of format RR, which differ in their condition only. -/

namespace Sys2Proof

/-- R53, R54: the words of an RR instruction `c` are the non-negative ones with the opcode that selects it. -/
theorem decodes_to_rr_iff {c : Mode → Mode → Instr} {k : Nat}
    (hc : ∀ m0 m1 m2, selectInstr k m0 m1 m2 = .ok (c m0 m1)) (w : Word) :
    (∃ m0 m1, decode w = .ok (c m0 m1)) ↔ 0 ≤ w.toInt ∧ w.toNat % 100 = k := by
  constructor
  · rintro ⟨m0, m1, h⟩
    exact ⟨nonneg_of_decode h, (mod_of_decode h).trans (opcode_of_selectInstr (hc m0 m1 m1)).symm⟩
  · rintro ⟨hw, hk⟩
    exact ⟨_, _, (decode_of_mod hw hk).trans (hc _ _ _)⟩

namespace Machine

theorem exec_jumpIfTrue (m0 m1 : Mode) (s : State) :
    exec (.jumpIfTrue m0 m1) s = finish (jumpWhen (fun a => nonzeroWord a) m0 m1 s) := rfl

theorem exec_jumpIfFalse (m0 m1 : Mode) (s : State) :
    exec (.jumpIfFalse m0 m1) s = finish (jumpWhen (fun a => !nonzeroWord a) m0 m1 s) := rfl

theorem nonzeroWord_iff (a : Word) : nonzeroWord a = true ↔ a ≠ 0 := decide_eq_true_iff

theorem not_nonzeroWord_iff (a : Word) : (!nonzeroWord a) = true ↔ a = 0 := by
  rw [Bool.not_eq_true', Bool.eq_false_iff, ne_eq, nonzeroWord_iff, not_not]

/-- R99: a jump ends in one of two ways: with both parameters read it goes to its target or past its operands, by its
condition `P`; else it takes the first fault its parameters meet, whatever the condition is. -/
theorem jump_ends {i : Instr} {taken : Word → Bool} {P : Word → Prop} [DecidablePred P] {m0 m1 : Mode} {s : State}
    (htaken : ∀ a, taken a = true ↔ P a) (hi : exec i s = finish (jumpWhen taken m0 m1 s)) :
    (∀ a b, runsRR s m0 m1 a b →
      exec i s = .next { s with pc := if P a then b else s.pc + 2, status := .running }) ∧
    (∀ e p, firstFault s [(m0, .source), (m1, .source)] s.pc = some (e, p) →
      exec i s = .next (raise .addressFault e { s with pc := p })) := by
  refine ⟨fun a b hruns => ?_, fun e p hfault => hi.trans (finish_jumpWhen_of_fault taken hfault)⟩
  rw [hi, finish_jumpWhen_of_runs taken hruns]
  simp only [htaken]

/-- Settles O21: JUMP-IF-TRUE is the jump that opcode 5 selects, taken when the condition is not 0. -/
theorem jumpIfTrueJumpsOnNonzero : Obligations.JumpIfTrueJumpsOnNonzero :=
  ⟨decodes_to_rr_iff fun _ _ _ => rfl, fun m0 m1 s => jump_ends nonzeroWord_iff (exec_jumpIfTrue m0 m1 s)⟩

/-- Settles O22: JUMP-IF-FALSE is the jump that opcode 6 selects, taken when the condition is 0. -/
theorem jumpIfFalseJumpsOnZero : Obligations.JumpIfFalseJumpsOnZero :=
  ⟨decodes_to_rr_iff fun _ _ _ => rfl, fun m0 m1 s => jump_ends not_nonzeroWord_iff (exec_jumpIfFalse m0 m1 s)⟩

end Machine
end Sys2Proof
end

section
/-! LESS-THAN and EQUALS (44_compare.md R106, R107): the two instances of format RRW whose result is the truth of a relation
on the two sources. -/

namespace Sys2Proof.Machine

/-- R105: the Word stored for a relation that `decide` tests. -/
theorem truthWord_decide (P : Prop) [Decidable P] : truthWord (decide P) = if P then 1 else 0 := by
  by_cases h : P <;> simp [truthWord, h]

theorem truthWord_lessThanWord (a b : Word) : truthWord (lessThanWord a b) = if a.toInt < b.toInt then 1 else 0 :=
  truthWord_decide _

theorem truthWord_equalWord (a b : Word) : truthWord (equalWord a b) = if a = b then 1 else 0 :=
  truthWord_decide _

theorem exec_lessThan (m0 m1 m2 : Mode) (s : State) :
    exec (.lessThan m0 m1 m2) s = finish (storeResult (fun a b => if a.toInt < b.toInt then 1 else 0) m0 m1 m2 s) := by
  simp only [← truthWord_lessThanWord, exec, execLessThan]

theorem exec_equals (m0 m1 m2 : Mode) (s : State) :
    exec (.equals m0 m1 m2) s = finish (storeResult (fun a b => if a = b then 1 else 0) m0 m1 m2 s) := by
  simp only [← truthWord_equalWord, exec, execEquals]

/-- Settles O15: LESS-THAN is the RRW instruction that opcode 7 selects, with the truth of the signed order as its
result. -/
theorem lessThanStoresTruth : Obligations.LessThanStoresTruth :=
  ⟨decodes_to_rrw_iff fun _ _ _ => rfl, fun m0 m1 m2 s => rrw_ends (exec_lessThan m0 m1 m2 s)⟩

/-- Settles O16: EQUALS is the RRW instruction that opcode 8 selects, with the truth of equality as its result. -/
theorem equalsStoresTruth : Obligations.EqualsStoresTruth :=
  ⟨decodes_to_rrw_iff fun _ _ _ => rfl, fun m0 m1 m2 s => rrw_ends (exec_equals m0 m1 m2 s)⟩

end Sys2Proof.Machine
end

section
/-! ADJUST-RELATIVE-BASE (45_relative_base.md R111): the format R instruction that writes `rb`. -/

namespace Sys2Proof.Machine

theorem exec_adjustRelativeBase (m0 : Mode) (s : State) :
    exec (.adjustRelativeBase m0) s = execAdjustRelativeBase m0 s := rfl

/-- Settles O23: opcode 9 selects the instruction; it either reads its source in `s`, so under the old `rb`, and adds it,
or takes the fault of its one parameter with `rb` as it was. -/
theorem adjustAddsToRelativeBase : Obligations.AdjustAddsToRelativeBase := by
  refine ⟨decodes_to_r_iff fun _ _ _ => rfl, fun m0 s => ⟨fun a hruns => ?_, fun e p hfault => ?_⟩⟩
  · exact (exec_adjustRelativeBase m0 s).trans (execAdjustRelativeBase_of_runs hruns)
  · exact (exec_adjustRelativeBase m0 s).trans (execAdjustRelativeBase_of_fault hfault)

end Sys2Proof.Machine
end

section
/-! HALT (46_halt.md R114): its encoding, and that Halted lasts: under `step()`, under `run()`, and under every operation of
the host that does not begin with a reset. -/

namespace Sys2Proof

/-- R53, R54: HALT has no parameter, so its words are the non-negative ones with its opcode. -/
theorem decodes_to_halt_iff (w : Word) : decode w = .ok .halt ↔ 0 ≤ w.toInt ∧ w.toNat % 100 = 99 :=
  ⟨fun h => ⟨nonneg_of_decode h, mod_of_decode h⟩, fun ⟨hw, hk⟩ => decode_of_mod hw hk⟩

namespace Machine

theorem exec_halt (s : State) : exec .halt s = .next (s.setStatus .halted) := rfl

/-! ### A halted core under `step()` and `run()` (R74, R79) -/

theorem step_of_halted {s : State} (h : s.status = .halted) : step s = .next s := by
  rcases step_cases s with ⟨_, hs⟩ | ⟨hn, _⟩ | ⟨hn, _⟩ | ⟨hn, _⟩
  · exact hs
  · exact absurd h hn
  · exact absurd h hn
  · exact absurd h hn

theorem run_of_halted {s : State} (h : s.status = .halted) (n : Nat) : run (n + 1) s = some s := by
  simp only [run, step_of_halted h, if_pos h]

/-! ### What the host's operations do to STATUS (R142) -/

@[simp] theorem loadProgram_status (p : List Word) (s : State) : (loadProgram p s).1.status = s.status := by
  rw [loadProgram]
  split <;> rfl

@[simp] theorem loadText_status (text : List Char) (s : State) : (loadText text s).1.status = s.status := by
  rw [loadText]
  split
  · exact loadProgram_status _ s
  · rfl

@[simp] theorem tryPopOutput_status (s : State) : (tryPopOutput s).2.status = s.status := by
  rw [tryPopOutput]
  split <;> rfl

theorem blockingPopOutput_keeps_status {s t : State} {v : Option Word} (h : blockingPopOutput s = some (v, t)) :
    t.status = s.status := by
  rw [blockingPopOutput] at h
  split at h
  · cases h; rfl
  · split at h <;> cases h
    rfl

theorem configure_core {f : State → State} {x y : Session} {r : HostReply} (h : x.configure f = some (r, y)) :
    y.core = f x.core := by
  rw [Session.configure] at h
  split at h <;> cases h
  rfl

/-- R114: of the host's operations only those that begin with a reset take a core out of Halted. `step` is the one other
operation that can write STATUS, and on a halted core it changes nothing. -/
theorem hostApply_keeps_halted {op : HostOp} {x y : Session} {r : HostReply} (hx : x.core.status = .halted)
    (h : hostApply op x = some (r, y)) :
    y.core.status = .halted ∨ op = .reset ∨ (∃ p, op = .resetAndLoad p) ∨ ∃ text, op = .resetAndLoadText text := by
  cases op with
  | reset => exact .inr (.inl rfl)
  | resetAndLoad p => exact .inr (.inr (.inl ⟨p, rfl⟩))
  | resetAndLoadText text => exact .inr (.inr (.inr ⟨text, rfl⟩))
  | step =>
    rw [hostApply, step_of_halted hx] at h
    cases h
    exact .inl hx
  | load p => cases h; exact .inl ((loadProgram_status p x.core).trans hx)
  | loadText text => cases h; exact .inl ((loadText_status text x.core).trans hx)
  | push v => cases h; exact .inl hx
  | tryPopOutput => cases h; exact .inl ((tryPopOutput_status x.core).trans hx)
  | blockingPopOutput =>
    rw [hostApply] at h
    split at h
    next hp => cases h; exact .inl ((blockingPopOutput_keeps_status hp).trans hx)
    next => cases h
  | drainAllOutputs => cases h; exact .inl hx
  | pendingOutputCount => cases h; exact .inl hx
  | readStatus => cases h; exact .inl hx
  | readFcause => cases h; exact .inl hx
  | peek a =>
    rw [hostApply] at h
    split at h <;> cases h
    exact .inl hx
  | attachProducer id => exact .inl ((congrArg State.status (configure_core h)).trans hx)
  | attachConsumer => exact .inl ((congrArg State.status (configure_core h)).trans hx)
  | setVerbosity v => exact .inl ((congrArg State.status (configure_core h)).trans hx)

/-- Settles O24: HALT writes STATUS only, and every later clause is about a core whose STATUS is Halted. -/
theorem haltStopsTheCore : Obligations.HaltStopsTheCore :=
  ⟨decodes_to_halt_iff, fun s =>
    ⟨exec_halt s, step_of_halted rfl, run_of_halted rfl, resetCore_status _,
      fun _ _ _ _ hx h => hostApply_keeps_halted hx h⟩⟩

end Machine
end Sys2Proof
end

section
/-! The host's handle on OUTQ: the polling pop, the drain and the count (60_exceptions.md R133, R136, R137). -/

namespace Sys2Proof
namespace Machine

/-- Writing back the queue that OUTQ already holds changes nothing. -/
theorem setOutq_of_outq {s : State} {q : List Word} (h : s.outq = q) : s.setOutq q = s := by
  subst h
  rfl

theorem tryPopOutput_of_empty {s : State} (h : s.outq = []) : tryPopOutput s = (none, s) := by
  rw [tryPopOutput, h]

theorem tryPopOutput_of_cons {s : State} {v : Word} {q : List Word} (h : s.outq = v :: q) :
    tryPopOutput s = (some v, s.setOutq q) := by
  rw [tryPopOutput, h]

theorem drainAllOutputs_of_outq {s : State} {q : List Word} (h : s.outq = q) :
    drainAllOutputs s = (q, s.setOutq []) := by
  rw [drainAllOutputs, h]

theorem drainAllOutputs_of_empty {s : State} (h : s.outq = []) : drainAllOutputs s = ([], s) := by
  rw [drainAllOutputs_of_outq h, setOutq_of_outq h]

theorem pendingOutputCount_of_outq {s : State} {q : List Word} (h : s.outq = q) :
    pendingOutputCount s = q.length := by
  rw [pendingOutputCount, h]

/-- Settles O48: each of the three operations depends on OUTQ alone, and draining an empty OUTQ writes back the queue it
holds. -/
theorem outputHandleOperations : Obligations.OutputHandleOperations :=
  ⟨fun _ h => ⟨tryPopOutput_of_empty h, drainAllOutputs_of_empty h, pendingOutputCount_of_outq h⟩,
    fun _ _ _ h => ⟨tryPopOutput_of_cons h, drainAllOutputs_of_outq h, pendingOutputCount_of_outq h⟩⟩

end Machine
end Sys2Proof
end

section
/-! `load(program)` on both sides of the memory limit, and what it leaves unchanged (70_reset_and_hazards.md section 2,
R118, R156, R158). -/

namespace Sys2Proof
namespace Machine

theorem loadProgram_of_tooLong {p : List Word} {s : State} (h : s.config.memCells < p.length) :
    loadProgram p s = (s, some .capacityExceeded) := by
  rw [loadProgram, if_pos h]

theorem loadProgram_of_fits {p : List Word} {s : State} (h : p.length ≤ s.config.memCells) :
    loadProgram p s = (s.setMem (Memory.writeAll 0 p s.mem), none) := by
  rw [loadProgram, if_neg (Nat.not_lt.mpr h)]

theorem loadProgram_capacityExceeded_iff (p : List Word) (s : State) :
    (loadProgram p s).2 = some .capacityExceeded ↔ s.config.memCells < p.length := by
  constructor
  · intro hcap
    by_contra hlen
    rw [loadProgram_of_fits (Nat.not_lt.mp hlen)] at hcap
    cases hcap
  · intro hlen
    rw [loadProgram_of_tooLong hlen]

@[simp] theorem loadProgram_fcause (p : List Word) (s : State) : (loadProgram p s).1.fcause = s.fcause := by
  rcases Nat.lt_or_ge s.config.memCells p.length with hlong | hfits
  · rw [loadProgram_of_tooLong hlong]
  · rw [loadProgram_of_fits hfits, setMem_fcause]

/-- Settles O46: a program that fits answers no error, and on either side of the limit only memory can change. -/
theorem capacityExceededWhenTooLong : Obligations.CapacityExceededWhenTooLong :=
  fun p s => ⟨loadProgram_capacityExceeded_iff p s, loadProgram_fcause p s, loadProgram_status p s⟩

end Machine
end Sys2Proof
end

section
/-! The decoder against the encoder (30_encoding.md sections 1 to 4). Both are read through one equivalence: a word decodes
to `i` exactly when it is not negative, has the opcode of `i`, and has the modes of `i` as its next decimal digits. -/

namespace Sys2Proof

/-! ### Mode digits -/

/-- R49: the modes named by the `k` low decimal digits of `n`, the lowest first. -/
def digitModes (n : Nat) : Nat → List Mode
  | 0 => []
  | k + 1 => Mode.ofDigit (n % 10) :: digitModes (n / 10) k

@[simp] theorem length_digitModes (n k : Nat) : (digitModes n k).length = k := by
  induction k generalizing n with
  | zero => rfl
  | succ k ih => simp [digitModes, ih]

theorem wf_of_mem_digitModes {n k : Nat} {m : Mode} (h : m ∈ digitModes n k) : m.wf = true := by
  induction k generalizing n with
  | zero => cases h
  | succ k ih =>
    rcases List.mem_cons.1 h with rfl | h
    · exact ofDigit_wf (Nat.mod_lt n (by decide))
    · exact ih h

theorem modesValue_digitModes (n k : Nat) : modesValue (digitModes n k) = n % 10 ^ k := by
  induction k generalizing n with
  | zero => rw [digitModes, modesValue, pow_zero, Nat.mod_one]
  | succ k ih => rw [digitModes, modesValue, digit_of_ofDigit, ih, pow_succ', Nat.mod_mul]

theorem digitModes_modesValue {ms : List Mode} (h : ∀ m ∈ ms, m.wf = true) :
    digitModes (modesValue ms) ms.length = ms := by
  induction ms with
  | nil => rfl
  | cons m ms ih =>
    obtain ⟨hm, hms⟩ := List.forall_mem_cons.1 h
    have hd := Laws.EncodedOpcode.digit_le_nine hm
    have hmod : (m.digit + 10 * modesValue ms) % 10 = m.digit := by omega
    have hdiv : (m.digit + 10 * modesValue ms) / 10 = modesValue ms := by omega
    rw [modesValue, List.length_cons, digitModes, hmod, hdiv, ofDigit_of_digit hm, ih hms]

/-- Higher digits name no mode of the list. -/
theorem digitModes_mod (n k : Nat) : digitModes (n % 10 ^ k) k = digitModes n k := by
  rw [← modesValue_digitModes n k]
  simpa using digitModes_modesValue (ms := digitModes n k) fun m hm => wf_of_mem_digitModes hm

theorem take_three_digits (n : Nat) {k : Nat} (hk : k ≤ 3) :
    [Mode.ofDigit (n / 100 % 10), Mode.ofDigit (n / 1000 % 10), Mode.ofDigit (n / 10000 % 10)].take k =
      digitModes (n / 100) k := by
  interval_cases k <;> simp [digitModes, Nat.div_div_eq_div_mul]

/-! ### Modes of an instruction -/

theorem paramCount_le_three (i : Instr) : i.paramCount ≤ 3 := by
  cases i <;> simp [Instr.paramCount, Instr.modes]

theorem wf_iff_modes (i : Instr) : i.wf = true ↔ ∀ m ∈ i.modes, m.wf = true := by
  cases i <;> simp [Instr.wf, Instr.modes, and_assoc]

theorem opcode_lt_hundred (i : Instr) : i.opcode < 100 := by
  cases i <;> simp [Instr.opcode]

/-- R72: the instruction an opcode selects is the one with that opcode whose modes are the first of the three given. -/
theorem selectInstr_eq_ok_iff {k : Nat} {m0 m1 m2 : Mode} {i : Instr} :
    selectInstr k m0 m1 m2 = .ok i ↔ k = i.opcode ∧ i.modes = [m0, m1, m2].take i.paramCount := by
  constructor
  · intro h
    refine ⟨opcode_of_selectInstr h, ?_⟩
    unfold selectInstr at h
    split at h <;> cases h <;> rfl
  · rintro ⟨rfl, h⟩
    cases i <;> cases h <;> rfl

/-- Everything the decoder accepts, and as what. -/
theorem decode_eq_ok_iff {w : Word} {i : Instr} : decode w = .ok i ↔
    0 ≤ w.toInt ∧ w.toNat % 100 = i.opcode ∧ i.modes = digitModes (w.toNat / 100) i.paramCount := by
  rw [← take_three_digits _ (paramCount_le_three i)]
  constructor
  · intro h
    have hw := nonneg_of_decode h
    exact ⟨hw, selectInstr_eq_ok_iff.1 ((decode_nonneg hw).symm.trans h)⟩
  · rintro ⟨hw, h⟩
    exact (decode_nonneg hw).trans (selectInstr_eq_ok_iff.2 h)

/-- R55, R56: what the decoder accepts at all. -/
theorem exists_decode_iff (w : Word) :
    (∃ i, decode w = .ok i) ↔ 0 ≤ w.toInt ∧ w.toNat % 100 ∈ [1, 2, 3, 4, 5, 6, 7, 8, 9, 99] := by
  constructor
  · rintro ⟨i, h⟩
    exact ⟨nonneg_of_decode h, mod_of_decode h ▸ opcode_mem i⟩
  · rintro ⟨hw, hk⟩
    exact decode_nonneg hw ▸ exists_selectInstr _ _ _ hk

/-! ### The encoder's word -/

theorem encodeNat_lt {i : Instr} (h : i.wf = true) : encodeNat i < 100000 := by
  have hlen : i.modes.length ≤ 3 := paramCount_le_three i
  exact (Laws.EncodedOpcode.of_modes _ _ (opcode_lt_hundred i) hlen ((wf_iff_modes i).1 h)).2

theorem toNat_encode {i : Instr} (h : i.wf = true) : (encode i).toNat = encodeNat i := by
  have := encodeNat_lt h
  rw [encode, BitVec.toNat_ofNat, Nat.mod_eq_of_lt (by omega)]

theorem toInt_encode_nonneg {i : Instr} (h : i.wf = true) : 0 ≤ (encode i).toInt := by
  have hn := toNat_encode h
  have := encodeNat_lt h
  rw [BitVec.toInt_eq_toNat_of_lt (by omega)]
  omega

theorem encodeNat_mod (i : Instr) : encodeNat i % 100 = i.opcode := by
  have := opcode_lt_hundred i
  rw [encodeNat]
  omega

theorem encodeNat_div (i : Instr) : encodeNat i / 100 = modesValue i.modes := by
  have := opcode_lt_hundred i
  rw [encodeNat]
  omega

theorem decode_encode {i : Instr} (h : i.wf = true) : decode (encode i) = .ok i := by
  have hmodes := digitModes_modesValue ((wf_iff_modes i).1 h)
  refine decode_eq_ok_iff.2 ⟨toInt_encode_nonneg h, ?_, ?_⟩
  · rw [toNat_encode h, encodeNat_mod]
  · rw [toNat_encode h, encodeNat_div, Instr.paramCount, hmodes]

/-- Settles O4: the encoder's number has the opcode in its two low digits and the modes in the digits above them. -/
theorem decodeEncodeRoundTrip : Obligations.DecodeEncodeRoundTrip :=
  fun _ => decode_encode

/-- Settles O1: each word is decoded. -/
theorem specWordsDecode : Obligations.SpecWordsDecode := by
  unfold Obligations.SpecWordsDecode
  decide

/-- Settles O3: the digits from weight 100 on name the modes. -/
theorem decodedModesAreDigits : Obligations.DecodedModesAreDigits := by
  intro w i h
  obtain ⟨-, -, hmodes⟩ := decode_eq_ok_iff.1 h
  rw [hmodes, take_three_digits _ (paramCount_le_three i)]

/-- Settles O5: the first cell is the encoder's word, and the operands are as many as the instruction has parameters. -/
theorem cellsRoundTrip : Obligations.CellsRoundTrip := by
  intro i operands rest hwf hlen
  have hle : ¬ (operands ++ rest).length < i.paramCount := by
    rw [List.length_append]
    omega
  rw [encodeCells, List.cons_append, decodeCells, decode_encode hwf]
  simp only [if_neg hle]
  rw [← hlen, List.take_left, List.drop_left]

/-- A word splits into its opcode and its `k` mode digits. -/
theorem mod_pow_two_add (n k : Nat) : n % 10 ^ (2 + k) = n % 100 + 100 * (n / 100 % 10 ^ k) := by
  rw [pow_add]
  exact Nat.mod_mul

/-- Settles O6: the modes are read from digits, so they are digits, and the encoder puts them back in their places. -/
theorem decodedIsCanonical : Obligations.DecodedIsCanonical := by
  intro w i h
  obtain ⟨hw, hop, hmodes⟩ := decode_eq_ok_iff.1 h
  refine ⟨(wf_iff_modes i).2 fun m hm => wf_of_mem_digitModes (hmodes ▸ hm), hw, ?_⟩
  rw [mod_pow_two_add, hop, encodeNat, hmodes, modesValue_digitModes]

/-- Settles O7: the opcode and the modes of `i` are read from the digits on which both words agree. -/
theorem decodeIgnoresUnexaminedDigits : Obligations.DecodeIgnoresUnexaminedDigits := by
  intro w w' i h hw' hmod
  obtain ⟨-, hop, hmodes⟩ := decode_eq_ok_iff.1 h
  rw [mod_pow_two_add, mod_pow_two_add] at hmod
  have hlow : w'.toNat % 100 = w.toNat % 100 := by omega
  have hhigh : w'.toNat / 100 % 10 ^ i.paramCount = w.toNat / 100 % 10 ^ i.paramCount := by omega
  refine decode_eq_ok_iff.2 ⟨hw', hlow.trans hop, ?_⟩
  rw [hmodes, ← digitModes_mod, ← hhigh, digitModes_mod]

end Sys2Proof
end

section
/-! The step by what stands at `pc` (40_execution_cycle.md section 1): a halted core, an address outside memory, a word that
is no instruction, and an instruction. -/

namespace Sys2Proof
namespace Machine

/-! ### The trace line of a step (R147, log 7) -/

theorem executedLine_of_quiet {i : Instr} {s t : State} (h : s.config.verbosity ≠ .everyInstruction) :
    executedLine i s t = [] := by
  cases hv : s.config.verbosity <;> simp_all [executedLine]

theorem traceExecuted_of_quiet {i : Instr} {s : State} {o : Host.Outcome State Fault Refusal}
    (h : s.config.verbosity ≠ .everyInstruction) : traceExecuted i s o = o := by
  cases o with
  | next t => simp only [traceExecuted, executedLine_of_quiet h, List.append_nil]; rfl
  | fault r => rfl
  | refused r => rfl

/-- Settles O8: the step of a decoded instruction, whose trace line is empty but at VERBOSITY 2. -/
theorem stepRunsDecodedInstruction : Obligations.StepRunsDecodedInstruction := by
  intro s w i hs hw hi
  have hstep := step_of_decoded hs hw hi
  exact ⟨hstep, fun hv => hstep.trans (traceExecuted_of_quiet (s := s.setPc (s.pc + 1)) hv)⟩

/-- Settles O9. -/
theorem haltedStepChangesNothing : Obligations.HaltedStepChangesNothing :=
  fun _ => step_of_halted

/-- Settles O10: an address outside memory is no cell, so the fetch raises before `pc` advances. -/
theorem fetchOutsideMemoryFaults : Obligations.FetchOutsideMemoryFaults :=
  fun _ hs hpc => step_of_bad_fetch hs (cellAt_eq_none.2 hpc)

theorem exists_decode_error {w : Word} (h : ¬ ∃ i, decode w = .ok i) : ∃ x, decode w = .error x := by
  cases hd : decode w with
  | ok i => exact absurd ⟨i, hd⟩ h
  | error x => exact ⟨x, rfl⟩

/-- R55, R56: what the decoder refuses. -/
theorem not_exists_decode_iff (w : Word) :
    (¬ ∃ i, decode w = .ok i) ↔ w.toInt < 0 ∨ w.toNat % 100 ∉ [1, 2, 3, 4, 5, 6, 7, 8, 9, 99] := by
  rw [exists_decode_iff, not_and_or, not_le]

/-- Settles O11: the decoder accepts neither kind of word. -/
theorem unknownOpcodeHalts : Obligations.UnknownOpcodeHalts := by
  intro s w hs hw hbad
  obtain ⟨x, hx⟩ := exists_decode_error ((not_exists_decode_iff w).2 hbad)
  exact step_of_undecoded hs hw hx

end Machine
end Sys2Proof
end

section
/-! How an instruction can end, said once for all ten: each way to end with the state it leaves and why it ends there. The
frames and the rules about whole steps are read off these ways. -/

namespace Sys2Proof
namespace Machine

/-- R90, R91: INPUT takes `v`, which leaves INQ holding `q` and `n` producer calls made: the head of INQ, or the producer's
answer when INQ is empty. -/
inductive Takes (s : State) (v : Word) (q : List Word) (n : Nat) : Prop
  | head (hq : s.inq = v :: q) (hn : n = s.producerCalls)
  | drawn (hq : s.inq = []) (hp : s.config.hasProducer = true)
      (hv : v = Config.producerWord s.config.producerId s.producerCalls) (he : q = []) (hn : n = s.producerCalls + 1)

/-- A value is there exactly when it can be taken. -/
theorem takes_or_blocked (s : State) :
    (inputAvailable s = true ∧ ∃ v q n, Takes s v q n ∧ takeInput s = (v, { s with inq := q, producerCalls := n })) ∨
      (inputAvailable s = false ∧ s.inq = [] ∧ s.config.hasProducer = false) := by
  cases hq : s.inq with
  | cons v q =>
    exact .inl ⟨inputAvailable_of_queued hq, v, q, _, .head hq rfl, takeInput_of_queued hq⟩
  | nil =>
    cases hp : s.config.hasProducer with
    | true =>
      have ht : takeInput s = (Config.producerWord s.config.producerId s.producerCalls,
          { s with inq := [], producerCalls := s.producerCalls + 1 }) := by
        rw [takeInput_of_empty hq, ← hq]
        rfl
      exact .inl ⟨(inputAvailable_of_empty hq).trans hp, _, [], _, .drawn hq hp rfl rfl rfl, ht⟩
    | false => exact .inr ⟨(inputAvailable_of_empty hq).trans hp, rfl, rfl⟩

/-- The ways an instruction ends in `t`, entered in `s`. -/
inductive ExecEnd (s : State) : Instr → State → Prop
  /-- a parameter of an instruction other than INPUT faults (R124) -/
  | faulted {i : Instr} {e : FaultInfo} {p : Word} (hi : ∀ m0, i ≠ .input m0)
      (hf : firstFault s (paramsOf i) s.pc = some (e, p)) : ExecEnd s i (raise .addressFault e (s.setPc p))
  /-- a result `v` of two sources is stored (R67) -/
  | stored {i : Instr} {m0 m1 m2 : Mode} {a b v : Word} {d : Nat}
      (hi : i ∈ [Instr.add m0 m1 m2, .mul m0 m1 m2, .lessThan m0 m1 m2, .equals m0 m1 m2])
      (hr : runsRRW s m0 m1 m2 a b d) :
      ExecEnd s i { s with mem := Memory.write d v s.mem, pc := s.pc + 3, status := .running }
  /-- a jump goes to its target or falls through (R99) -/
  | jumped {i : Instr} {m0 m1 : Mode} {a b p : Word} (hi : i ∈ [Instr.jumpIfTrue m0 m1, .jumpIfFalse m0 m1])
      (hr : runsRR s m0 m1 a b) : ExecEnd s i { s with pc := p, status := .running }
  /-- OUTPUT puts its value into OUTQ (R93) -/
  | queued {m0 : Mode} {a : Word} (hr : runsR s m0 a) (hc : s.config.hasConsumer = false) :
      ExecEnd s (.output m0) { s with outq := s.outq ++ [a], pc := s.pc + 1, status := .running }
  /-- OUTPUT hands its value to the consumer (R93) -/
  | consumed {m0 : Mode} {a : Word} (hr : runsR s m0 a) (hc : s.config.hasConsumer = true) :
      ExecEnd s (.output m0) { s with delivered := s.delivered ++ [a], pc := s.pc + 1, status := .running }
  /-- ADJUST-RELATIVE-BASE writes `rb` (R111) -/
  | adjusted {m0 : Mode} {a : Word} (hr : runsR s m0 a) :
      ExecEnd s (.adjustRelativeBase m0)
        { s with rb := wrap (s.rb.toInt + a.toInt), pc := s.pc + 1, status := .running }
  /-- HALT (R114) -/
  | halted : ExecEnd s .halt (s.setStatus .halted)
  /-- the operand of INPUT cannot be fetched (R87) -/
  | unfetched {m0 : Mode} (ho : cellAt s s.pc = none) :
      ExecEnd s (.input m0) (raise .addressFault (.address s.pc) s)
  /-- INPUT finds no value (R88) -/
  | blocked {m0 : Mode} {o : Word} (ho : cellAt s s.pc = some o) (hq : s.inq = [])
      (hp : s.config.hasProducer = false) :
      ExecEnd s (.input m0) { s with pc := s.pc - 1, status := .awaitingInput }
  /-- INPUT stores the value it took (R87) -/
  | taken {m0 : Mode} {o v : Word} {q : List Word} {n d : Nat} (ho : cellAt s s.pc = some o)
      (ht : Takes s v q n) (hd : paramCell s m0 o = some d) :
      ExecEnd s (.input m0) { s with
        mem := Memory.write d v s.mem, pc := s.pc + 1, inq := q, producerCalls := n, status := .running }
  /-- INPUT loses the value it took (D11) -/
  | lost {m0 : Mode} {o v : Word} {q : List Word} {n : Nat} {e : FaultInfo} (ho : cellAt s s.pc = some o)
      (ht : Takes s v q n) (he : paramFault s m0 .dest o = some e) :
      ExecEnd s (.input m0) (raise .addressFault e { s with pc := s.pc + 1, inq := q, producerCalls := n })

section Ends

variable {i : Instr} {m0 m1 m2 : Mode} {s t : State}

/-- ADD, MUL, LESS-THAN and EQUALS are of format RRW (R53). -/
theorem exec_storing (hi : i ∈ [Instr.add m0 m1 m2, .mul m0 m1 m2, .lessThan m0 m1 m2, .equals m0 m1 m2]) (s : State) :
    paramsOf i = [(m0, .source), (m1, .source), (m2, .dest)] ∧
      ∃ f, exec i s = finish (storeResult f m0 m1 m2 s) := by
  simp only [List.mem_cons, List.not_mem_nil, or_false] at hi
  rcases hi with rfl | rfl | rfl | rfl <;> exact ⟨rfl, _, rfl⟩

/-- The two jumps are of format RR (R53). -/
theorem exec_jump (hi : i ∈ [Instr.jumpIfTrue m0 m1, .jumpIfFalse m0 m1]) (s : State) :
    paramsOf i = [(m0, .source), (m1, .source)] ∧ ∃ taken, exec i s = finish (jumpWhen taken m0 m1 s) := by
  simp only [List.mem_cons, List.not_mem_nil, or_false] at hi
  rcases hi with rfl | rfl <;> exact ⟨rfl, _, rfl⟩

theorem execEnd_of_storing (hi : i ∈ [Instr.add m0 m1 m2, .mul m0 m1 m2, .lessThan m0 m1 m2, .equals m0 m1 m2])
    (h : exec i s = .next t) : ExecEnd s i t := by
  obtain ⟨hp, f, hx⟩ := exec_storing hi s
  rcases finish_storeResult_cases f m0 m1 m2 s with ⟨a, b, d, hr, k⟩ | ⟨e, p, hf, k⟩ <;>
    cases h.symm.trans (hx.trans k)
  · exact .stored hi hr
  · exact .faulted (by rintro m rfl; simp at hi) (hp ▸ hf)

theorem execEnd_of_jump (hi : i ∈ [Instr.jumpIfTrue m0 m1, .jumpIfFalse m0 m1]) (h : exec i s = .next t) :
    ExecEnd s i t := by
  obtain ⟨hp, taken, hx⟩ := exec_jump hi s
  rcases finish_jumpWhen_cases taken m0 m1 s with ⟨a, b, hr, k⟩ | ⟨e, p, hf, k⟩ <;>
    cases h.symm.trans (hx.trans k)
  · exact .jumped hi hr
  · exact .faulted (by rintro m rfl; simp at hi) (hp ▸ hf)

theorem execEnd_of_output (h : exec (.output m0) s = .next t) : ExecEnd s (.output m0) t := by
  rcases execOutput_cases m0 s with ⟨a, hr, k⟩ | ⟨e, p, hf, k⟩
  · cases hc : s.config.hasConsumer with
    | false =>
      rw [emit_to_queue (s := s.setPc (s.pc + 1)) hc] at k
      cases h.symm.trans k
      exact .queued hr hc
    | true =>
      rw [emit_to_consumer (s := s.setPc (s.pc + 1)) hc] at k
      cases h.symm.trans k
      exact .consumed hr hc
  · cases h.symm.trans k
    exact .faulted (by simp) hf

theorem execEnd_of_input (h : exec (.input m0) s = .next t) : ExecEnd s (.input m0) t := by
  cases ho : cellAt s s.pc with
  | none => cases h.symm.trans (execInput_of_bad_fetch ho); exact .unfetched ho
  | some o =>
    rcases takes_or_blocked s with ⟨ha, v, q, n, ht, hv⟩ | ⟨ha, hq, hp⟩
    · cases hd : paramCell s m0 o with
      | some d => cases h.symm.trans (exec_input_stores ho ha hv hd); exact .taken ho ht hd
      | none =>
        obtain ⟨e, he⟩ := exists_paramFault_of_paramCell_none hd
        cases h.symm.trans (exec_input_loses ho ha hv he)
        exact .lost ho ht he
    · cases h.symm.trans (exec_input_blocks ho hq hp); exact .blocked ho hq hp

/-- Everything an instruction can do. -/
theorem exec_end (h : exec i s = .next t) : ExecEnd s i t := by
  cases i with
  | add m0 m1 m2 => exact execEnd_of_storing (m0 := m0) (m1 := m1) (m2 := m2) (by simp) h
  | mul m0 m1 m2 => exact execEnd_of_storing (m0 := m0) (m1 := m1) (m2 := m2) (by simp) h
  | lessThan m0 m1 m2 => exact execEnd_of_storing (m0 := m0) (m1 := m1) (m2 := m2) (by simp) h
  | equals m0 m1 m2 => exact execEnd_of_storing (m0 := m0) (m1 := m1) (m2 := m2) (by simp) h
  | jumpIfTrue m0 m1 => exact execEnd_of_jump (m0 := m0) (m1 := m1) (by simp) h
  | jumpIfFalse m0 m1 => exact execEnd_of_jump (m0 := m0) (m1 := m1) (by simp) h
  | input m0 => exact execEnd_of_input h
  | output m0 => exact execEnd_of_output h
  | halt => cases h; exact .halted
  | adjustRelativeBase m0 =>
    rcases execAdjustRelativeBase_cases m0 s with ⟨a, hr, k⟩ | ⟨e, p, hf, k⟩ <;> cases h.symm.trans k
    · exact .adjusted hr
    · exact .faulted (by simp) hf

end Ends

end Machine
end Sys2Proof
end

section
/-! What each instruction leaves unchanged (the frames), and where it leaves `pc` (43_jumps.md). -/

namespace Sys2Proof
namespace Machine

/-! ### Where an instruction stores -/

/-- Position and Relative mode name a cell through a valid address. -/
theorem exists_address_of_paramCell {s : State} {m : Mode} {o : Word} {d : Nat} (h : paramCell s m o = some d) :
    ∃ a : Word, validCell s a ∧ a.toNat = d := by
  cases m with
  | position =>
    rw [paramCell, Option.ite_none_right_eq_some, Option.some.injEq] at h
    exact ⟨o, h⟩
  | immediate => cases h
  | relative =>
    rw [paramCell, Option.ite_none_right_eq_some, Option.some.injEq] at h
    exact ⟨_, h⟩
  | reserved k => cases h

theorem destinationAt_of_paramCell {s : State} {m : Mode} {p o : Word} {d : Nat} (ho : cellAt s p = some o)
    (hd : paramCell s m o = some d) : destinationAt s m p = some d := by
  rw [destinationAt, memRead_eq_ok.2 ho]
  simp only [destination_eq_ok.2 hd]

theorem storeAddress_of_runsRRW {i : Instr} {s : State} {m0 m1 m2 : Mode} {a b : Word} {d : Nat}
    (hi : i ∈ [Instr.add m0 m1 m2, .mul m0 m1 m2, .lessThan m0 m1 m2, .equals m0 m1 m2])
    (hr : runsRRW s m0 m1 m2 a b d) : storeAddress i s = some d := by
  obtain ⟨_, _, o, _, _, _, _, ho, hd⟩ := hr
  simp only [List.mem_cons, List.not_mem_nil, or_false] at hi
  rcases hi with rfl | rfl | rfl | rfl <;> exact destinationAt_of_paramCell ho hd

/-- 20_memory.md: a store to the cell an address names leaves every other cell. -/
theorem read_write_of_ne_some {x : Option Nat} {d a : Nat} (hx : x = some d) (ha : x ≠ some a) (v : Word)
    (m : Memory) : Memory.read a (Memory.write d v m) = Memory.read a m :=
  read_write_other (by rintro rfl; exact ha hx) v m

/-! ### The frames -/

/-- Settles O29: an instruction of format RRW stores one result or raises, and touches nothing else. -/
theorem frameOfStoringInstructions : Obligations.FrameOfStoringInstructions := by
  intro m0 m1 m2 i s t hi h
  obtain ⟨-, f, hx⟩ := exec_storing hi s
  rcases finish_storeResult_cases f m0 m1 m2 s with ⟨a, b, d, hr, k⟩ | ⟨e, p, -, k⟩ <;>
    cases h.symm.trans (hx.trans k)
  · exact ⟨rfl, rfl, rfl, rfl, rfl, rfl,
      fun c hc => read_write_of_ne_some (storeAddress_of_runsRRW hi hr) hc _ _, .inl ⟨rfl, rfl, rfl⟩⟩
  · exact ⟨rfl, rfl, rfl, rfl, rfl, rfl, fun _ _ => rfl, .inr ⟨rfl, rfl, rfl, e, rfl⟩⟩

/-- Settles O30: of the ways to end, the ones these instructions have store nothing and take no input. -/
theorem frameOfNonStoringInstructions : Obligations.FrameOfNonStoringInstructions := by
  intro m0 m1 i s t hi h
  simp only [List.mem_cons, List.not_mem_nil, or_false] at hi
  cases exec_end h with
  | faulted _ _ =>
    exact ⟨fun _ => rfl, rfl, rfl, rfl, rfl, fun _ => rfl, fun _ => ⟨rfl, rfl⟩,
      .inr ⟨rfl, rfl, rfl, rfl, rfl, _, rfl⟩⟩
  | jumped hj _ =>
    have hne : i ≠ .halt := by rintro rfl; simp at hj
    exact ⟨fun _ => rfl, rfl, rfl, rfl, rfl, fun _ => rfl, fun _ => ⟨rfl, rfl⟩,
      .inl ⟨(if_neg hne).symm, rfl, rfl⟩⟩
  | queued _ _ =>
    obtain rfl : _ = m0 := by simpa using hi
    exact ⟨fun _ => rfl, rfl, rfl, rfl, rfl, fun _ => rfl, fun hne => absurd rfl hne, .inl ⟨rfl, rfl, rfl⟩⟩
  | consumed _ _ =>
    obtain rfl : _ = m0 := by simpa using hi
    exact ⟨fun _ => rfl, rfl, rfl, rfl, rfl, fun _ => rfl, fun hne => absurd rfl hne, .inl ⟨rfl, rfl, rfl⟩⟩
  | adjusted _ =>
    obtain rfl : _ = m0 := by simpa using hi
    exact ⟨fun _ => rfl, rfl, rfl, rfl, rfl, fun hne => absurd rfl hne, fun _ => ⟨rfl, rfl⟩, .inl ⟨rfl, rfl, rfl⟩⟩
  | halted =>
    exact ⟨fun _ => rfl, rfl, rfl, rfl, rfl, fun _ => rfl, fun _ => ⟨rfl, rfl⟩, .inl ⟨rfl, rfl, rfl⟩⟩
  | stored hs _ => rcases hi with rfl | rfl | rfl | rfl | rfl <;> simp at hs
  | _ => simp at hi

theorem Takes.inq_eq {s : State} {v : Word} {q : List Word} {n : Nat} (h : Takes s v q n) :
    q = s.inq ∨ q = s.inq.tail := by
  cases h with
  | head hq _ => exact .inr (by rw [hq]; rfl)
  | drawn hq _ _ he _ => exact .inl (he.trans hq.symm)

theorem Takes.calls_eq {s : State} {v : Word} {q : List Word} {n : Nat} (h : Takes s v q n) :
    n = s.producerCalls ∨ n = s.producerCalls + 1 := by
  cases h with
  | head _ hn => exact .inl hn
  | drawn _ _ _ _ hn => exact .inr hn

/-- Settles O31, by the four ways INPUT ends. -/
theorem frameOfInput : Obligations.FrameOfInput := by
  intro m0 s t h
  cases exec_end h with
  | faulted hi _ => exact absurd rfl (hi m0)
  | stored hi _ => simp at hi
  | jumped hi _ => simp at hi
  | unfetched _ =>
    exact ⟨rfl, rfl, rfl, rfl, .inl rfl, .inl rfl, fun _ _ => rfl, .inr (.inr ⟨rfl, rfl, rfl, _, rfl⟩)⟩
  | blocked _ _ _ =>
    exact ⟨rfl, rfl, rfl, rfl, .inl rfl, .inl rfl, fun _ _ => rfl, .inr (.inl ⟨rfl, rfl, rfl, rfl, rfl, rfl⟩)⟩
  | taken ho ht hd =>
    exact ⟨rfl, rfl, rfl, rfl, ht.inq_eq, ht.calls_eq,
      fun c hc => read_write_of_ne_some (destinationAt_of_paramCell ho hd) hc _ _, .inl ⟨rfl, rfl, rfl⟩⟩
  | lost _ ht _ =>
    exact ⟨rfl, rfl, rfl, rfl, ht.inq_eq, ht.calls_eq, fun _ _ => rfl, .inr (.inr ⟨rfl, rfl, rfl, _, rfl⟩)⟩

/-! ### Control flow -/

theorem paramCount_eq_length (i : Instr) : i.paramCount = (paramsOf i).length := by
  cases i <;> rfl

/-- Settles O28: every way to end Running is past the last operand, but for a jump. -/
theorem completedInstructionAdvancesPc : Obligations.CompletedInstructionAdvancesPc := by
  intro i s t h5 h6 h ht
  cases exec_end h with
  | stored hi _ => rw [paramCount_eq_length, (exec_storing hi s).1]; rfl
  | jumped hi _ =>
    simp only [List.mem_cons, List.not_mem_nil, or_false] at hi
    rcases hi with rfl | rfl
    · exact absurd rfl h5
    · exact absurd rfl h6
  | queued _ _ => rfl
  | consumed _ _ => rfl
  | adjusted _ => rfl
  | taken _ _ _ => rfl
  | _ => cases ht

theorem exec_jumpIfTrue_of_runs {m0 m1 : Mode} {s : State} {a b : Word} (hr : runsRR s m0 m1 a b) :
    exec (.jumpIfTrue m0 m1) s = .next { s with pc := if a ≠ 0 then b else s.pc + 2, status := .running } :=
  (jump_ends nonzeroWord_iff (exec_jumpIfTrue m0 m1 s)).1 a b hr

theorem exec_jumpIfFalse_of_runs {m0 m1 : Mode} {s : State} {a b : Word} (hr : runsRR s m0 m1 a b) :
    exec (.jumpIfFalse m0 m1) s = .next { s with pc := if a = 0 then b else s.pc + 2, status := .running } :=
  (jump_ends not_nonzeroWord_iff (exec_jumpIfFalse m0 m1 s)).1 a b hr

/-- Settles O25: the two conditions are each other's negation. -/
theorem jumpsAreComplementary : Obligations.JumpsAreComplementary := by
  intro m0 m1 s a b hr
  refine ⟨_, _, exec_jumpIfTrue_of_runs hr, exec_jumpIfFalse_of_runs hr, fun ha => ?_, fun ha => ?_⟩
  · exact ⟨if_pos ha, if_neg ha⟩
  · exact ⟨if_neg (not_not.2 ha), if_pos ha⟩

/-- R99: a jump that is taken goes to its target. -/
theorem exec_of_taken_jump {m0 m1 : Mode} {i : Instr} {s : State} {a b : Word} (hr : runsRR s m0 m1 a b)
    (hi : i = .jumpIfTrue m0 m1 ∧ a ≠ 0 ∨ i = .jumpIfFalse m0 m1 ∧ a = 0) :
    exec i s = .next { s with pc := b, status := .running } := by
  rcases hi with ⟨rfl, ha⟩ | ⟨rfl, ha⟩
  · rw [exec_jumpIfTrue_of_runs hr, if_pos ha]
  · rw [exec_jumpIfFalse_of_runs hr, if_pos ha]

/-- Settles O26: the jump copies its target unchecked, and the next fetch checks it. -/
theorem jumpOutsideFaultsAtNextFetch : Obligations.JumpOutsideFaultsAtNextFetch := by
  intro m0 m1 i s a b hr hi hb
  have hfetch := step_of_bad_fetch (s := { s with pc := b, status := .running }) nofun (cellAt_eq_none.2 hb)
  exact ⟨_, _, exec_of_taken_jump hr hi, rfl, rfl, rfl, hfetch, rfl, rfl, rfl, rfl⟩

/-! ### A store into the next instruction's cell (20_memory.md section 3) -/

/-- A state whose memory got `v` at the cell `p` names reads `v` there. -/
theorem cellAt_of_write {s t : State} {m : Mode} {o p v : Word} (hd : paramCell s m o = some p.toNat)
    (hmem : t.mem = Memory.write p.toNat v s.mem) (hcfg : t.config = s.config) : cellAt t p = some v := by
  obtain ⟨a, ha, hp⟩ := exists_address_of_paramCell hd
  obtain rfl : a = p := BitVec.eq_of_toNat_eq hp
  refine cellAt_eq_some.2 ⟨?_, by rw [hmem, read_write_same]⟩
  rw [validCell, hcfg]
  exact ha

theorem cellAt_of_stored {i : Instr} {s : State} {f : Word → Word → Word} {m0 m1 m2 : Mode} {a b : Word}
    (hi : exec i s = finish (storeResult f m0 m1 m2 s)) (hr : runsRRW s m0 m1 m2 a b (s.pc + 3).toNat) :
    ∃ t, exec i s = .next t ∧ t.pc = s.pc + 3 ∧ cellAt t t.pc = some (f a b) := by
  have hr' := hr
  obtain ⟨_, _, _, _, _, _, _, _, hd⟩ := hr'
  exact ⟨_, (rrw_ends hi).1 a b _ hr, rfl, cellAt_of_write hd rfl rfl⟩

/-- What INPUT takes, with INQ or the producer as its source. -/
theorem exists_takes {s : State} {v : Word} (h : s.inq.head? = some v ∨ s.inq = [] ∧ s.config.hasProducer = true ∧
    v = Config.producerWord s.config.producerId s.producerCalls) :
    inputAvailable s = true ∧ ∃ q n, takeInput s = (v, { s with inq := q, producerCalls := n }) := by
  rcases h with h | ⟨hq, hp, rfl⟩
  · obtain ⟨q, hq⟩ := List.head?_eq_some_iff.1 h
    exact ⟨inputAvailable_of_queued hq, q, _, takeInput_of_queued hq⟩
  · exact ⟨(inputAvailable_of_empty hq).trans hp, s.inq, _, takeInput_of_empty hq⟩

/-- Settles O27: each storing instruction leaves `pc` at the cell after it, which is the cell it stored to. -/
theorem storeIsSeenByNextFetch : Obligations.StoreIsSeenByNextFetch := by
  refine ⟨fun m0 m1 m2 s a b hr => ⟨?_, ?_, ?_, ?_⟩, fun m0 s o v ho hd hv => ?_⟩
  · exact cellAt_of_stored (exec_add m0 m1 m2 s) hr
  · exact cellAt_of_stored (exec_mul m0 m1 m2 s) hr
  · exact (cellAt_of_stored (exec_lessThan m0 m1 m2 s) hr :)
  · exact (cellAt_of_stored (exec_equals m0 m1 m2 s) hr :)
  · obtain ⟨ha, q, n, ht⟩ := exists_takes hv
    exact ⟨_, exec_input_stores ho ha ht hd, rfl, cellAt_of_write hd rfl rfl⟩

end Machine
end Sys2Proof
end

section
/-! Rules about whole steps: who writes `rb`, the queues and memory, what a fault leaves, and what causes one. -/

namespace Sys2Proof
namespace Machine

/-- An instruction that another one's word decodes to is not it. -/
theorem eq_of_decode {w : Word} {i j : Instr} (hi : decode w = .ok i) (hj : decode w = .ok j) : i = j := by
  rw [hi] at hj
  exact Except.ok.inj hj

/-- R111: of the ways to end only that of ADJUST-RELATIVE-BASE writes `rb`. -/
theorem exec_rb {i : Instr} {s t : State} (h : exec i s = .next t) :
    t.rb = s.rb ∨ ∃ m0, i = .adjustRelativeBase m0 := by
  cases exec_end h with
  | adjusted _ => exact .inr ⟨_, rfl⟩
  | _ => exact .inl rfl

/-- Settles O32: a step without an instruction leaves `rb`. -/
theorem onlyAdjustWritesRelativeBase : Obligations.OnlyAdjustWritesRelativeBase := by
  intro s t h hrb
  rcases step_next_cases h with ⟨_, rfl⟩ | ⟨_, _, rfl⟩ | ⟨_, _, _, _, _, rfl⟩ | ⟨_, w, i, u, hw, hi, hu, rfl⟩
  · exact absurd rfl hrb
  · exact absurd rfl hrb
  · exact absurd rfl hrb
  · obtain ⟨m0, rfl⟩ := (exec_rb hu).resolve_left hrb
    exact ⟨w, m0, hw, hi⟩

/-- What INPUT takes leaves INQ as it was, or without its head. -/
theorem Takes.inq_step {s : State} {v : Word} {q : List Word} {n : Nat} (h : Takes s v q n) :
    q = s.inq ∨ s.inq = v :: q := by
  cases h with
  | head hq _ => exact .inr hq
  | drawn hq _ _ he _ => exact .inl (he.trans hq.symm)

/-- 42_io.md: an instruction takes from INQ only as INPUT, and puts into OUTQ only as OUTPUT. -/
theorem exec_queues {i : Instr} {s t : State} (h : exec i s = .next t) :
    (t.inq = s.inq ∨ ∃ m0 v, i = .input m0 ∧ s.inq = v :: t.inq) ∧
    (t.outq = s.outq ∨ ∃ m0 v, i = .output m0 ∧ runsR s m0 v ∧ t.outq = s.outq ++ [v]) := by
  cases exec_end h with
  | taken _ ht _ => exact ⟨ht.inq_step.imp_right fun hq => ⟨_, _, rfl, hq⟩, .inl rfl⟩
  | lost _ ht _ => exact ⟨ht.inq_step.imp_right fun hq => ⟨_, _, rfl, hq⟩, .inl rfl⟩
  | queued hr _ => exact ⟨.inl rfl, .inr ⟨_, _, rfl, hr, rfl⟩⟩
  | _ => exact ⟨.inl rfl, .inl rfl⟩

/-- Settles O33: a step without an instruction touches no queue. -/
theorem onlyIoTouchesQueues : Obligations.OnlyIoTouchesQueues := by
  intro s t h
  rcases step_next_cases h with ⟨_, rfl⟩ | ⟨_, _, rfl⟩ | ⟨_, _, _, _, _, rfl⟩ | ⟨_, w, i, u, hw, hi, hu, rfl⟩
  · exact ⟨.inl rfl, .inl rfl⟩
  · exact ⟨.inl rfl, .inl rfl⟩
  · exact ⟨.inl rfl, .inl rfl⟩
  · obtain ⟨hin, hout⟩ := exec_queues hu
    refine ⟨hin.imp_right ?_, hout.imp_right ?_⟩
    · rintro ⟨m0, v, rfl, hq⟩
      exact ⟨w, m0, v, hw, hi, hq⟩
    · rintro ⟨m0, v, rfl, hr, hq⟩
      exact ⟨w, m0, v, hw, hi, hr, hq⟩

/-- An instruction writes at most the cell `d` that its last parameter names; the destination's operand is the last. -/
theorem exec_memory {i : Instr} {s t : State} (h : exec i s = .next t) :
    t.mem = s.mem ∨ ∃ m o d v, (paramsOf i).getLast? = some (m, .dest) ∧
      cellAt s (s.pc - 1 + BitVec.ofNat 64 i.paramCount) = some o ∧ paramCell s m o = some d ∧
      t.mem = Memory.write d v s.mem := by
  cases exec_end h with
  | stored hi hr =>
    obtain ⟨hp, -⟩ := exec_storing hi s
    obtain ⟨_, _, o, _, _, _, _, ho, hd⟩ := hr
    have hpc : s.pc - 1 + BitVec.ofNat 64 i.paramCount = s.pc + 2 := by
      rw [paramCount_eq_length, hp, List.length_cons, List.length_cons, List.length_singleton]
      bv_omega
    exact .inr ⟨_, o, _, _, by rw [hp]; rfl, hpc ▸ ho, hd, rfl⟩
  | taken ho _ hd =>
    exact .inr ⟨_, _, _, _, rfl, (BitVec.sub_add_cancel s.pc 1).symm ▸ ho, hd, rfl⟩
  | _ => exact .inl rfl

/-- Settles O34. -/
theorem stepStoresOnlyAtDestination : Obligations.StepStoresOnlyAtDestination := by
  intro s t h
  rcases step_next_cases h with ⟨_, rfl⟩ | ⟨_, _, rfl⟩ | ⟨_, _, _, _, _, rfl⟩ | ⟨_, w, i, u, hw, hi, hu, rfl⟩
  · exact .inl rfl
  · exact .inl rfl
  · exact .inl rfl
  · refine (exec_memory hu).imp_right ?_
    rintro ⟨m, o, d, v, hp, ho, hd, hmem⟩
    rw [setPc_pc, BitVec.add_sub_cancel] at ho
    refine ⟨w, i, m, o, d, hw, hi, hp, ho, hd, fun a ha => ?_⟩
    rw [setTrace_mem, hmem]
    exact read_write_other ha v s.mem

/-! ### Faults -/

/-- R121, D3: an instruction leaves FCAUSE, or raises AddressFault with memory, `rb` and the output side as they were. -/
theorem exec_fault {i : Instr} {s t : State} (h : exec i s = .next t) :
    t.fcause = s.fcause ∨ t.fcause = .addressFault ∧ t.status = .halted ∧ t.mem = s.mem ∧ t.rb = s.rb ∧
      t.outq = s.outq ∧ t.delivered = s.delivered ∧ t.config = s.config ∧ (t.inq = s.inq ∨ t.inq = s.inq.tail) := by
  cases exec_end h with
  | faulted _ _ => exact .inr ⟨rfl, rfl, rfl, rfl, rfl, rfl, rfl, .inl rfl⟩
  | unfetched _ => exact .inr ⟨rfl, rfl, rfl, rfl, rfl, rfl, rfl, .inl rfl⟩
  | lost _ ht _ => exact .inr ⟨rfl, rfl, rfl, rfl, rfl, rfl, rfl, ht.inq_eq⟩
  | _ => exact .inl rfl

/-- Settles O35: the fault of a step is its fetch's, its decoder's or its instruction's. -/
theorem faultLeavesMemoryAndBase : Obligations.FaultLeavesMemoryAndBase := by
  intro s t hs h ht
  rcases step_next_cases h with ⟨_, rfl⟩ | ⟨_, _, rfl⟩ | ⟨_, _, _, _, _, rfl⟩ | ⟨_, w, i, u, _, _, hu, rfl⟩
  · exact absurd hs ht
  · exact ⟨rfl, rfl, rfl, rfl, rfl, rfl, .inl rfl⟩
  · exact ⟨rfl, rfl, rfl, rfl, rfl, rfl, .inl rfl⟩
  · rcases exec_fault hu with hfc | ⟨-, hrest⟩
    · exact absurd (hfc.trans hs) ht
    · exact hrest

/-- R119 (a) to (e) for an instruction entered in `s`: an operand cannot be fetched, or a parameter faults and is not the
one of an INPUT that blocks. -/
def ParamsFault (i : Instr) (s : State) : Prop :=
  ∃ k m kind, (paramsOf i)[k]? = some (m, kind) ∧
    (cellAt s (s.pc + BitVec.ofNat 64 k) = none ∨
      (paramFault s m kind (Memory.read (s.pc + BitVec.ofNat 64 k).toNat s.mem)).isSome = true ∧
        ((∀ m0, i ≠ .input m0) ∨ s.inq ≠ [] ∨ s.config.hasProducer = true))

theorem ParamsFault.firstFault_ne_none {i : Instr} {s : State} (h : ParamsFault i s) :
    firstFault s (paramsOf i) s.pc ≠ none := by
  obtain ⟨k, m, kind, hk, hc⟩ := h
  exact Option.isSome_iff_ne_none.1 ((firstFault_isSome_iff s _ _).2 ⟨k, m, kind, hk, hc.imp_right And.left⟩)

/-- But for INPUT, the first fault is a fault that counts. -/
theorem paramsFault_of_firstFault {i : Instr} {s : State} {x : FaultInfo × Word} (hi : ∀ m0, i ≠ .input m0)
    (h : firstFault s (paramsOf i) s.pc = some x) : ParamsFault i s := by
  obtain ⟨k, m, kind, hk, hc⟩ := (firstFault_isSome_iff s (paramsOf i) s.pc).1 (by rw [h]; rfl)
  exact ⟨k, m, kind, hk, hc.imp_right fun hf => ⟨hf, .inl hi⟩⟩

/-- INPUT has one parameter, whose operand is at `pc`. -/
theorem paramsFault_input_iff {m0 : Mode} {s : State} : ParamsFault (.input m0) s ↔
    cellAt s s.pc = none ∨ (paramFault s m0 .dest (Memory.read s.pc.toNat s.mem)).isSome = true ∧
      (s.inq ≠ [] ∨ s.config.hasProducer = true) := by
  have hpc : s.pc + BitVec.ofNat 64 0 = s.pc := by simp
  constructor
  · rintro ⟨_ | k, m, kind, hk, hc⟩
    · cases hk
      rw [hpc] at hc
      exact hc.imp_right fun ⟨hf, hsrc⟩ => ⟨hf, hsrc.resolve_left fun hne => hne m0 rfl⟩
    · cases hk
  · intro hc
    refine ⟨0, m0, .dest, rfl, ?_⟩
    rw [hpc]
    exact hc.imp_right fun ⟨hf, hsrc⟩ => ⟨hf, .inr hsrc⟩

theorem Takes.has_source {s : State} {v : Word} {q : List Word} {n : Nat} (h : Takes s v q n) :
    s.inq ≠ [] ∨ s.config.hasProducer = true := by
  cases h with
  | head hq _ => exact .inl (by rw [hq]; nofun)
  | drawn _ hp _ _ _ => exact .inr hp

/-- The causes of an instruction's AddressFault: each way to end is with a fault or shows that there is none. -/
theorem exec_addressFault_iff {i : Instr} {s t : State} (hs : s.fcause ≠ .addressFault) (h : exec i s = .next t) :
    t.fcause = .addressFault ↔ ParamsFault i s := by
  have completes {u : State} (hu : u.fcause = s.fcause) (hf : firstFault s (paramsOf i) s.pc = none) :
      u.fcause = .addressFault ↔ ParamsFault i s :=
    ⟨fun hx => absurd (hu.symm.trans hx) hs, fun hx => absurd hf hx.firstFault_ne_none⟩
  cases exec_end h with
  | faulted hi hf => exact ⟨fun _ => paramsFault_of_firstFault hi hf, fun _ => rfl⟩
  | stored hi hr => exact completes rfl ((exec_storing hi s).1 ▸ firstFault_of_runsRRW hr)
  | jumped hi hr => exact completes rfl ((exec_jump hi s).1 ▸ firstFault_of_runsRR hr)
  | queued hr _ => exact completes rfl (firstFault_of_runsR hr)
  | consumed hr _ => exact completes rfl (firstFault_of_runsR hr)
  | adjusted hr => exact completes rfl (firstFault_of_runsR hr)
  | halted => exact completes rfl rfl
  | unfetched ho => exact ⟨fun _ => paramsFault_input_iff.2 (.inl ho), fun _ => rfl⟩
  | blocked ho hq hp =>
    refine ⟨fun hx => absurd hx hs, fun hx => ?_⟩
    rcases paramsFault_input_iff.1 hx with hn | ⟨-, hne | hpt⟩
    · rw [ho] at hn; cases hn
    · exact absurd hq hne
    · rw [hp] at hpt; cases hpt
  | taken ho _ hd =>
    refine completes rfl ?_
    simp only [paramsOf, firstFault, ho, paramFault_none_of_cell hd]
  | lost ho ht he =>
    refine ⟨fun _ => paramsFault_input_iff.2 (.inr ⟨?_, ht.has_source⟩), fun _ => rfl⟩
    rw [(cellAt_eq_some.1 ho).2, he]
    rfl

theorem eq_of_cellAt {s : State} {a v : Word} (h : cellAt s a = some v) : v = Memory.read a.toNat s.mem :=
  (cellAt_eq_some.1 h).2.symm

/-- A step raises AddressFault at its own fetch or through its instruction's parameters. -/
theorem step_addressFault_iff {s t : State} (hs : s.status ≠ .halted) (hfc : s.fcause = .none)
    (h : step s = .next t) : t.fcause = .addressFault ↔ ¬ validCell s s.pc ∨
      ∃ i, validCell s s.pc ∧ decode (Memory.read s.pc.toNat s.mem) = .ok i ∧
        ParamsFault i (s.setPc (s.pc + 1)) := by
  rcases step_next_cases h with ⟨hh, _⟩ | ⟨_, hx, rfl⟩ | ⟨_, w, x, hw, hx, rfl⟩ | ⟨_, w, i, u, hw, hi, hu, rfl⟩
  · exact absurd hh hs
  · exact ⟨fun _ => .inl (cellAt_eq_none.1 hx), fun _ => rfl⟩
  · refine ⟨nofun, ?_⟩
    obtain rfl := eq_of_cellAt hw
    rintro (hv | ⟨i, -, hi, -⟩)
    · exact absurd (cellAt_eq_some.1 hw).1 hv
    · rw [hx] at hi; cases hi
  · have hv := (cellAt_eq_some.1 hw).1
    obtain rfl := eq_of_cellAt hw
    rw [setTrace_fcause, exec_addressFault_iff (by rw [setPc_fcause, hfc]; nofun) hu]
    refine ⟨fun hp => .inr ⟨i, hv, hi, hp⟩, ?_⟩
    rintro (hn | ⟨j, -, hj, hp⟩)
    · exact absurd hv hn
    · exact eq_of_decode hj hi ▸ hp

/-- A step raises UnknownOpcode exactly at a word that decodes to nothing. -/
theorem step_unknownOpcode_iff {s t : State} (hs : s.status ≠ .halted) (hfc : s.fcause = .none)
    (h : step s = .next t) : t.fcause = .unknownOpcode ↔
      validCell s s.pc ∧ ¬ ∃ i, decode (Memory.read s.pc.toNat s.mem) = .ok i := by
  rcases step_next_cases h with ⟨hh, _⟩ | ⟨_, hx, rfl⟩ | ⟨_, w, x, hw, hx, rfl⟩ | ⟨_, w, i, u, hw, hi, hu, rfl⟩
  · exact absurd hh hs
  · exact ⟨nofun, fun ⟨hv, _⟩ => absurd hv (cellAt_eq_none.1 hx)⟩
  · obtain rfl := eq_of_cellAt hw
    refine ⟨fun _ => ⟨(cellAt_eq_some.1 hw).1, ?_⟩, fun _ => rfl⟩
    rintro ⟨i, hi⟩
    rw [hx] at hi; cases hi
  · obtain rfl := eq_of_cellAt hw
    refine ⟨fun hu' => ?_, fun ⟨_, hn⟩ => absurd ⟨i, hi⟩ hn⟩
    rw [setTrace_fcause] at hu'
    rcases exec_fault hu with hk | ⟨hk, -⟩
    · rw [hu', setPc_fcause, hfc] at hk; cases hk
    · rw [hu'] at hk; cases hk

/-- Settles O36: the parameters' faults spelled out by mode, operand and bounds. -/
theorem faultCauses : Obligations.FaultCauses := by
  intro s t hs hfc h
  refine ⟨(step_addressFault_iff hs hfc h).trans (or_congr_right ?_), ?_⟩
  · simp only [ParamsFault, paramFault_isSome_iff, cellAt_eq_none, cellAt_setPc]
    constructor
    · rintro ⟨i, ⟨h0, h1⟩, hi, k, m, kind, hk, hc⟩
      exact ⟨i, k, m, kind, _, _, h0, h1, hi, hk, rfl, rfl, hc⟩
    · rintro ⟨i, k, m, kind, _, _, h0, h1, hi, hk, rfl, rfl, hc⟩
      exact ⟨i, ⟨h0, h1⟩, hi, k, m, kind, hk, hc⟩
  · rw [step_unknownOpcode_iff hs hfc h, not_exists_decode_iff, and_assoc]

/-- Settles O37: the one way to end AwaitingInput puts `pc` back, and adds no line. -/
theorem onlyBlockedInputAwaits : Obligations.OnlyBlockedInputAwaits := by
  intro s t h ht
  rcases step_next_cases h with ⟨hh, rfl⟩ | ⟨_, _, rfl⟩ | ⟨_, _, _, _, _, rfl⟩ | ⟨hs, w, i, u, hw, hi, hu, rfl⟩
  · rw [hh] at ht; cases ht
  · cases ht
  · cases ht
  · rw [setTrace_status] at ht
    obtain ⟨m0, rfl, ha, rfl⟩ := exec_awaiting hu ht
    rcases takes_or_blocked s with ⟨ha', _⟩ | ⟨_, hq, hp⟩
    · cases ha'.symm.trans ha
    · refine ⟨?_, hq, hp, w, m0, hw, hi⟩
      rw [executedLine_of_awaiting rfl, List.append_nil, setPc_pc, BitVec.add_sub_cancel]
      rfl

/-! ### The invariant of a core (10_state.md section 2) -/

theorem State.inv_iff (s : State) : s.inv = true ↔ Memory.wf s.mem = true ∧ (∀ c ∈ s.mem, c.1 < s.config.memCells) ∧
    s.config.wf = true ∧ (s.fcause = .none ∨ s.status = .halted) := by
  simp only [State.inv, Bool.and_eq_true, Bool.or_eq_true, decide_eq_true_eq, List.all_eq_true, and_assoc]

theorem paramCell_lt {s : State} {m : Mode} {o : Word} {d : Nat} (h : paramCell s m o = some d) :
    d < s.config.memCells :=
  destination_lt (destination_eq_ok.2 h)

theorem exec_config {i : Instr} {s t : State} (h : exec i s = .next t) : t.config = s.config := by
  cases exec_end h <;> rfl

theorem exec_keeps_inv {i : Instr} {s t : State} (hs : s.inv = true) (hfc : s.fcause = .none)
    (h : exec i s = .next t) : t.inv = true := by
  obtain ⟨hwf, hbound, hcfg, -⟩ := (State.inv_iff s).1 hs
  rw [State.inv_iff, exec_config h]
  have hend : t.fcause = .none ∨ t.status = .halted :=
    (exec_fault h).imp (fun hk => hk.trans hfc) (fun ⟨_, hh, _⟩ => hh)
  rcases exec_memory h with hmem | ⟨m, o, d, v, -, -, hd, hmem⟩ <;> rw [hmem]
  · exact ⟨hwf, hbound, hcfg, hend⟩
  · exact ⟨wf_write d v hwf, bound_write (paramCell_lt hd) v hbound, hcfg, hend⟩

theorem raise_keeps_inv {c : FCause} {e : FaultInfo} {s : State} (hs : s.inv = true) : (raise c e s).inv = true := by
  obtain ⟨hwf, hbound, hcfg, -⟩ := (State.inv_iff s).1 hs
  exact (State.inv_iff _).2 ⟨hwf, hbound, hcfg, .inr rfl⟩

theorem step_answers_next (s : State) : ∃ t, step s = .next t := by
  rcases step_cases s with ⟨_, h⟩ | ⟨_, _, h⟩ | ⟨_, _, _, _, _, h⟩ | ⟨_, w, i, _, _, h⟩
  · exact ⟨_, h⟩
  · exact ⟨_, h⟩
  · exact ⟨_, h⟩
  · obtain ⟨t, ht⟩ := exec_answers_next i (s.setPc (s.pc + 1))
    exact ⟨_, h.trans (by rw [ht]; rfl)⟩

theorem step_keeps_inv {s t : State} (hs : s.inv = true) (h : step s = .next t) : t.inv = true := by
  rcases step_next_cases h with ⟨_, rfl⟩ | ⟨_, _, rfl⟩ | ⟨_, _, _, _, _, rfl⟩ | ⟨hh, w, i, u, _, _, hu, rfl⟩
  · exact hs
  · exact raise_keeps_inv hs
  · exact raise_keeps_inv (s := s.setPc (s.pc + 1)) hs
  · obtain ⟨-, -, -, hend⟩ := (State.inv_iff s).1 hs
    exact (exec_keeps_inv (s := s.setPc (s.pc + 1)) hs (hend.resolve_right hh) hu :)

/-- Settles O43: a step answers a next state, and each of the ways a step can go keeps the invariant. -/
theorem stepKeepsInvariant : Obligations.StepKeepsInvariant := by
  intro s hs
  obtain ⟨t, ht⟩ := step_answers_next s
  exact ⟨t, ht, step_keeps_inv hs ht⟩

end Machine
end Sys2Proof
end

section
/-! `wrap` (00_scope.md R9): the balanced remainder modulo `2^64`. -/

namespace Sys2Proof
namespace Machine

theorem toInt_wrap (z : Int) : (wrap z).toInt = z.bmod (2 ^ 64) :=
  BitVec.toInt_ofInt z

theorem wrap_toInt (r : Word) : wrap r.toInt = r :=
  BitVec.ofInt_toInt

/-- Congruent integers have the same Word. -/
theorem wrap_congr {y z : Int} (h : y % 2 ^ 64 = z % 2 ^ 64) : wrap y = wrap z := by
  refine BitVec.eq_of_toInt_eq ?_
  rw [toInt_wrap, toInt_wrap, Int.bmod_def, Int.bmod_def]
  norm_cast at h ⊢
  rw [h]

theorem toInt_wrap_of_mem_range {z : Int} (h0 : -(2 ^ 63) ≤ z) (h1 : z ≤ 2 ^ 63 - 1) : (wrap z).toInt = z := by
  rw [toInt_wrap]
  exact Int.bmod_eq_of_le (by omega) (by omega)

/-- Settles O38: a balanced remainder is congruent and in range, and a Word is the `wrap` of its own value. -/
theorem wrapIsTheCongruentWord : Obligations.WrapIsTheCongruentWord := by
  intro z
  refine ⟨?_, BitVec.le_toInt _, ?_, fun r hr => ?_⟩
  · rw [toInt_wrap]
    exact Int.bmod_emod
  · exact Int.le_sub_one_of_lt BitVec.toInt_lt
  · rw [← wrap_toInt r, wrap_congr hr]

/-- Settles O39: `wrap` is exact in the range of a Word. -/
theorem resultsInRangeAreExact : Obligations.ResultsInRangeAreExact :=
  ⟨fun _ _ => toInt_wrap_of_mem_range, fun _ _ => toInt_wrap_of_mem_range⟩

end Machine
end Sys2Proof
end

section
/-! Reset, the load operations, the output handle, and the invariant of a core with its host (70_reset_and_hazards.md
sections 1 and 2, 60_exceptions.md section 3). -/

namespace Sys2Proof
namespace Machine

/-! ### Reset -/

/-- Settles O40: the fields of a new core. -/
theorem newCoreIsInResetState : Obligations.NewCoreIsInResetState :=
  fun _ => ⟨fun _ => rfl, rfl, rfl, rfl, rfl, rfl, rfl, rfl, rfl, rfl, rfl⟩

/-- Settles O41: `reset()` writes every field but the configuration and the model's own records. -/
theorem resetGivesNewCoreState : Obligations.ResetGivesNewCoreState :=
  fun _ => rfl

theorem Session.inv_iff (x : Session) : x.inv = true ↔ x.core.inv = true ∧
    (x.core.config.hasConsumer = true → x.core.outq = []) ∧
    (x.fresh = true → x.core.pc = 0 ∧ x.core.rb = 0 ∧ x.core.status = .running ∧ x.core.outq = []) := by
  cases hc : x.core.config.hasConsumer <;> cases hf : x.fresh <;> simp [Session.inv, hc, hf, and_assoc]

theorem create_inv {c : Config} (h : c.wf = true) : (State.create c).inv = true :=
  (State.inv_iff _).2 ⟨rfl, nofun, h, .inl rfl⟩

theorem session_create_inv {c : Config} (h : c.wf = true) : (Session.create c).inv = true :=
  (Session.inv_iff _).2 ⟨create_inv h, fun _ => rfl, fun _ => ⟨rfl, rfl, rfl, rfl⟩⟩

/-- Settles O42: an empty memory, and the initial configuration is legal. -/
theorem invariantHoldsAtReset : Obligations.InvariantHoldsAtReset :=
  ⟨fun _ h => ⟨create_inv h, session_create_inv h⟩, create_inv (by decide)⟩

/-! ### Load -/

/-- Settles O45: consecutive writes from cell 0 on. -/
theorem loadPlacesProgram : Obligations.LoadPlacesProgram := by
  intro p s hp
  refine ⟨Memory.writeAll 0 p s.mem, loadProgram_of_fits hp, fun i hi => ?_, fun a ha => ?_⟩
  · simpa using read_writeAll_inside p 0 s.mem hi
  · exact read_writeAll_outside p 0 s.mem (.inr (by omega))

theorem parseTokens_cons_of_bad {k : List Char} (h : signedToken (trim k) = none) (ts : List (List Char)) :
    parseTokens (k :: ts) = none := by
  simp [parseTokens, h]

theorem parseTokens_cons_of_good {k : List Char} {w : Word} (h : signedToken (trim k) = some w)
    (ts : List (List Char)) : parseTokens (k :: ts) = (parseTokens ts).map (w :: ·) := by
  cases hp : parseTokens ts <;> simp [parseTokens, h, hp]

/-- R157: a list of tokens parses unless one of them is no Word. -/
theorem parseTokens_eq_none_iff (ts : List (List Char)) :
    parseTokens ts = none ↔ ∃ k ∈ ts, signedToken (trim k) = none := by
  induction ts with
  | nil => simp [parseTokens]
  | cons k ts ih =>
    cases hk : signedToken (trim k) with
    | none => simp [parseTokens_cons_of_bad hk, hk]
    | some w => simp [parseTokens_cons_of_good hk, hk, ih]

theorem parseTokens_of_words {ts : List (List Char)} {p : List Word}
    (h : ts.map (fun k => signedToken (trim k)) = p.map some) : parseTokens ts = some p := by
  induction ts generalizing p with
  | nil =>
    obtain rfl : p = [] := by simpa using h.symm
    rfl
  | cons k ts ih =>
    cases p with
    | nil => cases h
    | cons w p =>
      obtain ⟨hk, hts⟩ := List.cons.inj h
      rw [parseTokens_cons_of_good hk, ih hts, Option.map_some]

theorem loadText_of_unparsed {text : List Char} {s : State} (h : parseProgram text = none) :
    loadText text s = (s, some .formatError) := by
  rw [loadText, h]

theorem loadText_of_parsed {text : List Char} {p : List Word} {s : State} (h : parseProgram text = some p) :
    loadText text s = loadProgram p s := by
  rw [loadText, h]

/-- A program of Words is too long or loads; it is never ill-formed. -/
theorem loadProgram_ne_formatError (p : List Word) (s : State) : (loadProgram p s).2 ≠ some .formatError := by
  rw [loadProgram]
  split <;> nofun

theorem loadText_formatError_iff (text : List Char) (s : State) :
    (loadText text s).2 = some .formatError ↔ parseProgram text = none := by
  cases h : parseProgram text with
  | none => simp [loadText_of_unparsed h]
  | some p => simp [loadText_of_parsed h, loadProgram_ne_formatError]

/-- Settles O47: a text parses unless one of its tokens is no Word, and a text that does not parse changes nothing. -/
theorem formatErrorOnBadToken : Obligations.FormatErrorOnBadToken := by
  intro text s
  have hparse : parseProgram text = none ↔ _ := parseTokens_eq_none_iff (splitCommas (trim text))
  refine ⟨(loadText_formatError_iff text s).trans hparse, fun hbad => ?_, fun p hp => ?_⟩
  · rw [loadText_of_unparsed (hparse.2 hbad)]
  · exact loadText_of_parsed (parseTokens_of_words hp)

/-! ### The output handle -/

/-- Settles O49: each pop takes the head, so as many pops as OUTQ is long take it all. -/
theorem popsGiveWhatDrainGives : Obligations.PopsGiveWhatDrainGives := by
  intro s
  have key (q : List Word) : ∀ s : State, s.outq = q → popMany q.length s = some (q, s.setOutq []) := by
    induction q with
    | nil => exact fun s hq => by rw [setOutq_of_outq hq]; rfl
    | cons v q ih =>
      intro s hq
      rw [List.length_cons, popMany, tryPopOutput_of_cons hq]
      simp only [ih (s.setOutq q) rfl]
      rfl
  exact key s.outq s rfl

/-- Settles O50: by OUTQ, and when it is empty by STATUS. -/
theorem blockingPopWaits : Obligations.BlockingPopWaits := by
  intro s
  cases hq : s.outq with
  | nil => by_cases hs : s.status = .halted <;> simp [blockingPopOutput, hq, hs]
  | cons v q =>
    refine ⟨by simp [blockingPopOutput, hq], by simp [blockingPopOutput, hq], fun v' q' h => ?_⟩
    cases h
    rw [blockingPopOutput, hq]
    rfl

/-! ### The invariant of a core with its host -/

/-- What every operation of the host but `step`, `reset` and attaching a consumer does to a core: it keeps the core's
invariant, `pc`, `rb`, STATUS and HAS_CONSUMER, and puts nothing into an empty OUTQ. -/
structure HostChange (s t : State) : Prop where
  inv : s.inv = true → t.inv = true
  pc : t.pc = s.pc
  rb : t.rb = s.rb
  status : t.status = s.status
  consumer : t.config.hasConsumer = s.config.hasConsumer
  outq : s.outq = [] → t.outq = []

theorem HostChange.refl (s : State) : HostChange s s :=
  ⟨id, rfl, rfl, rfl, rfl, id⟩

theorem HostChange.session_inv {s t : State} {fresh : Bool} (h : HostChange s t)
    (hs : ({ core := s, fresh := fresh } : Session).inv = true) :
    ({ core := t, fresh := fresh } : Session).inv = true := by
  obtain ⟨hinv, hcons, hfresh⟩ := (Session.inv_iff _).1 hs
  refine (Session.inv_iff _).2 ⟨h.inv hinv, fun hc => h.outq (hcons (h.consumer.symm.trans hc)), fun hf => ?_⟩
  obtain ⟨hpc, hrb, hstatus, hout⟩ := hfresh hf
  exact ⟨h.pc.trans hpc, h.rb.trans hrb, h.status.trans hstatus, h.outq hout⟩

theorem hostChange_loadProgram (p : List Word) (s : State) : HostChange s (loadProgram p s).1 := by
  rcases Nat.lt_or_ge s.config.memCells p.length with hlong | hfits
  · rw [loadProgram_of_tooLong hlong]
    exact .refl s
  · rw [loadProgram_of_fits hfits]
    refine ⟨fun hs => ?_, rfl, rfl, rfl, rfl, id⟩
    obtain ⟨hwf, hbound, hcfg, hend⟩ := (State.inv_iff s).1 hs
    exact (State.inv_iff _).2
      ⟨wf_writeAll p 0 hwf, bound_writeAll p ((Nat.zero_add _).le.trans hfits) hbound, hcfg, hend⟩

theorem hostChange_loadText (text : List Char) (s : State) : HostChange s (loadText text s).1 := by
  cases h : parseProgram text with
  | none => rw [loadText_of_unparsed h]; exact .refl s
  | some p => rw [loadText_of_parsed h]; exact hostChange_loadProgram p s

theorem hostChange_setOutq {s : State} {q : List Word} (h : s.outq = [] → q = []) : HostChange s (s.setOutq q) :=
  ⟨id, rfl, rfl, rfl, rfl, h⟩

theorem hostChange_tryPopOutput (s : State) : HostChange s (tryPopOutput s).2 := by
  cases hq : s.outq with
  | nil => rw [tryPopOutput_of_empty hq]; exact .refl s
  | cons v q => rw [tryPopOutput_of_cons hq]; exact hostChange_setOutq (by rw [hq]; nofun)

theorem hostChange_blockingPopOutput {s t : State} {v : Option Word} (h : blockingPopOutput s = some (v, t)) :
    HostChange s t := by
  rw [blockingPopOutput] at h
  split at h
  next hq => cases h; exact hostChange_setOutq (by rw [hq]; nofun)
  next =>
    split at h <;> cases h
    exact .refl s

theorem resetCore_session_inv {s : State} (hs : s.inv = true) :
    ({ core := s.resetCore, fresh := true } : Session).inv = true := by
  obtain ⟨-, -, hcfg, -⟩ := (State.inv_iff s).1 hs
  exact (Session.inv_iff _).2
    ⟨(State.inv_iff _).2 ⟨rfl, nofun, hcfg, .inl rfl⟩, fun _ => rfl, fun _ => ⟨rfl, rfl, rfl, rfl⟩⟩

/-- R142, D29: the configuration changes only before the first step. -/
theorem configure_eq {f : State → State} {x y : Session} {r : HostReply} (h : x.configure f = some (r, y)) :
    x.fresh = true ∧ y = { x with core := f x.core } := by
  rw [Session.configure] at h
  split at h
  next hf => cases h; exact ⟨hf, rfl⟩
  next => cases h

theorem attachConsumer_session_inv {x : Session} (hx : x.inv = true) (hf : x.fresh = true) :
    ({ x with core := attachConsumer x.core } : Session).inv = true := by
  obtain ⟨hinv, -, hfresh⟩ := (Session.inv_iff x).1 hx
  obtain ⟨-, -, -, hout⟩ := hfresh hf
  exact (Session.inv_iff _).2 ⟨hinv, fun _ => hout, hfresh⟩

/-- R94, D16: with a consumer attached no instruction puts anything into OUTQ. -/
theorem exec_outq_of_consumer {i : Instr} {s t : State} (hc : s.config.hasConsumer = true)
    (h : exec i s = .next t) : t.outq = s.outq := by
  cases exec_end h with
  | queued _ hn => rw [hc] at hn; cases hn
  | _ => rfl

/-- R27: no step changes the configuration, and with a consumer attached none puts anything into OUTQ. -/
theorem step_config_outq {s t : State} (h : step s = .next t) :
    t.config = s.config ∧ (s.config.hasConsumer = true → t.outq = s.outq) := by
  rcases step_next_cases h with ⟨_, rfl⟩ | ⟨_, _, rfl⟩ | ⟨_, _, _, _, _, rfl⟩ | ⟨_, w, i, u, _, _, hu, rfl⟩
  · exact ⟨rfl, fun _ => rfl⟩
  · exact ⟨rfl, fun _ => rfl⟩
  · exact ⟨rfl, fun _ => rfl⟩
  · have hcfg := exec_config hu
    exact ⟨hcfg, fun hc => exec_outq_of_consumer (s := s.setPc (s.pc + 1)) (t := u) hc hu⟩

theorem step_session_inv {x : Session} {t : State} (hx : x.inv = true) (h : step x.core = .next t) :
    ({ core := t, fresh := false } : Session).inv = true := by
  obtain ⟨hinv, hcons, -⟩ := (Session.inv_iff x).1 hx
  obtain ⟨hcfg, hout⟩ := step_config_outq h
  refine (Session.inv_iff _).2 ⟨step_keeps_inv hinv h, fun hc => ?_, nofun⟩
  rw [hcfg] at hc
  exact (hout hc).trans (hcons hc)

/-- Settles O44: `reset`, `step` and attaching a consumer each by its own lemma, every other operation by what it changes. -/
theorem hostOperationsKeepInvariant : Obligations.HostOperationsKeepInvariant := by
  intro op x y r hx h
  obtain ⟨hinv, -⟩ := (Session.inv_iff x).1 hx
  cases op with
  | reset => cases h; exact resetCore_session_inv hinv
  | load p => cases h; exact (hostChange_loadProgram p x.core).session_inv hx
  | loadText text => cases h; exact (hostChange_loadText text x.core).session_inv hx
  | resetAndLoad p => cases h; exact (hostChange_loadProgram p _).session_inv (resetCore_session_inv hinv)
  | resetAndLoadText text => cases h; exact (hostChange_loadText text _).session_inv (resetCore_session_inv hinv)
  | step =>
    obtain ⟨t, ht⟩ := step_answers_next x.core
    rw [hostApply, ht] at h
    cases h
    exact step_session_inv hx ht
  | push v => cases h; exact HostChange.session_inv (s := x.core) ⟨id, rfl, rfl, rfl, rfl, id⟩ hx
  | tryPopOutput => cases h; exact (hostChange_tryPopOutput x.core).session_inv hx
  | blockingPopOutput =>
    rw [hostApply] at h
    split at h
    next hp => cases h; exact (hostChange_blockingPopOutput hp).session_inv hx
    next => cases h
  | drainAllOutputs => cases h; exact (hostChange_setOutq fun _ => rfl).session_inv hx
  | pendingOutputCount => cases h; exact hx
  | readStatus => cases h; exact hx
  | readFcause => cases h; exact hx
  | peek a =>
    rw [hostApply] at h
    split at h <;> cases h
    exact hx
  | attachProducer id =>
    obtain ⟨-, rfl⟩ := configure_eq h
    exact HostChange.session_inv (s := x.core) ⟨fun hs => hs, rfl, rfl, rfl, rfl, fun hq => hq⟩ hx
  | attachConsumer =>
    obtain ⟨hf, rfl⟩ := configure_eq h
    exact attachConsumer_session_inv hx hf
  | setVerbosity v =>
    obtain ⟨-, rfl⟩ := configure_eq h
    exact HostChange.session_inv (s := x.core) ⟨id, rfl, rfl, rfl, rfl, id⟩ hx

end Machine
end Sys2Proof
end

section
/-! What a step and a run depend on (40_execution_cycle.md section 4, 60_exceptions.md section 5, 70_reset_and_hazards.md
section 3), all from the locality of a step: `SameChange` carries a change from one state to another that looks alike. -/

namespace Sys2Proof
namespace Machine

/-! ### Reading a change off both ends -/

section Change

variable {s s' t t' : State} (h : SameChange s s' t t')
include h

/-- A change pins memory, `pc`, `rb` and STATUS. -/
theorem SameChange.eq_update : t' = { t with
    fcause := t'.fcause, inq := t'.inq, outq := t'.outq, config := t'.config, producerCalls := t'.producerCalls,
    delivered := t'.delivered, trace := t'.trace } := by
  obtain ⟨hmem, hpc, hrb, hstatus, -⟩ := h
  rw [← hmem, ← hpc, ← hrb, ← hstatus]

theorem SameChange.fcause_eq (hs : s'.fcause = s.fcause) : t'.fcause = t.fcause := by
  rcases h.fcause with ⟨ht, ht'⟩ | he
  · rw [ht, ht', hs]
  · exact he

theorem SameChange.inq_eq (hs : s'.inq = s.inq) : t'.inq = t.inq := by
  rcases h.inq with ⟨ht, ht'⟩ | ⟨ht, ht'⟩ <;> rw [ht, ht', hs]

theorem SameChange.outq_eq (hs : s'.outq = s.outq) : t'.outq = t.outq := by
  obtain ⟨k, ht, ht'⟩ := h.outq
  rw [ht, ht', hs]

theorem SameChange.calls_eq (hs : s'.producerCalls = s.producerCalls) : t'.producerCalls = t.producerCalls := by
  obtain ⟨k, ht, ht'⟩ := h.calls
  rw [ht, ht', hs]

theorem SameChange.delivered_eq (hs : s'.delivered = s.delivered) : t'.delivered = t.delivered := by
  obtain ⟨k, ht, ht'⟩ := h.delivered
  rw [ht, ht', hs]

theorem SameChange.config_eq (hs : s'.config = s.config) : t'.config = t.config := by
  rw [h.config, h.config', hs]

theorem SameChange.trace_eq (hv : s.config.verbosity = s'.config.verbosity) (hs : s'.trace = s.trace) :
    t'.trace = t.trace := by
  obtain ⟨k, ht, ht'⟩ := h.trace hv
  rw [ht, ht', hs]

end Change

/-! ### A push beside a step (20_memory.md section 2) -/

theorem head?_append_of_ne_nil {q : List Word} (h : q ≠ []) (l : List Word) : (q ++ l).head? = q.head? := by
  rw [List.head?_append, Option.or_of_isSome (List.isSome_head?.2 h)]

theorem agree_pushInput {s : State} (hq : s.inq ≠ []) (v : Word) : Agree s (pushInput v s) :=
  ⟨rfl, rfl, rfl, rfl, rfl, rfl, head?_append_of_ne_nil hq [v], fun hn => absurd hn hq⟩

/-- Settles O51: the step sees the head of INQ only, and a push at the tail stays there when the head is taken. -/
theorem pushCommutesWithStep : Obligations.PushCommutesWithStep := by
  intro s t v hq h
  obtain ⟨t', ht', hc⟩ := step_local (agree_pushInput hq v) rfl rfl h
  have hinq : t'.inq = t.inq ++ [v] := by
    rcases hc.inq with ⟨hi, hi'⟩ | ⟨hi, hi'⟩ <;> rw [hi, hi']
    · rfl
    · exact List.tail_append_of_ne_nil hq
  have heq : t' = pushInput v t := by
    rw [hc.eq_update, hinq, hc.fcause_eq rfl, hc.outq_eq rfl, hc.config_eq rfl, hc.calls_eq rfl, hc.delivered_eq rfl,
      hc.trace_eq rfl rfl]
    rfl
  rw [ht', heq]

/-! ### VERBOSITY -/

theorem agree_setVerbosity (v : Verbosity) (s : State) : Agree s (setVerbosity v s) :=
  ⟨rfl, rfl, rfl, rfl, rfl, rfl, rfl, fun _ _ => ⟨rfl, rfl⟩⟩

/-- Settles O54: no instruction reads VERBOSITY, and only the trace depends on it. -/
theorem verbosityHasNoEffect : Obligations.VerbosityHasNoEffect := by
  intro s t v h
  obtain ⟨t', ht', hc⟩ := step_local (agree_setVerbosity v s) rfl rfl h
  refine ⟨t', ht', ?_⟩
  have hcfg : t'.config = (setVerbosity v t).config := by
    rw [hc.config', setVerbosity, setVerbosity, setConfig_config, setConfig_config, hc.config]
  rw [hc.eq_update, hcfg, hc.fcause_eq rfl, hc.inq_eq rfl, hc.outq_eq rfl, hc.calls_eq rfl, hc.delivered_eq rfl]
  rfl

/-! ### The model's own records -/

/-- States with the same architectural part look alike to an instruction that can draw from no producer. -/
theorem agree_of_architectural {s s' : State} (hp : s.config.hasProducer = false)
    (h : s'.architectural = s.architectural) : Agree s s' where
  mem := (congrArg State.mem h :)
  pc := (congrArg State.pc h :)
  rb := (congrArg State.rb h :)
  cells := congrArg (fun x => x.config.memCells) h
  producer := congrArg (fun x => x.config.hasProducer) h
  consumer := congrArg (fun x => x.config.hasConsumer) h
  head := congrArg (fun x => x.inq.head?) h
  draw := fun _ hp' => absurd (hp.symm.trans hp') nofun

theorem SameChange.architectural_eq {s s' t t' : State} (hc : SameChange s s' t t')
    (h : s'.architectural = s.architectural) : t'.architectural = t.architectural := by
  rw [hc.eq_update, hc.fcause_eq (congrArg State.fcause h :), hc.inq_eq (congrArg State.inq h :),
    hc.outq_eq (congrArg State.outq h :), hc.config_eq (congrArg State.config h :)]
  rfl

theorem step_of_same_architectural {s s' t : State} (hp : s.config.hasProducer = false)
    (h : s'.architectural = s.architectural) (ht : step s = .next t) :
    ∃ t', step s' = .next t' ∧ SameChange s s' t t' :=
  step_local (agree_of_architectural hp h) (congrArg State.status h :) (congrArg State.fcause h :) ht

/-- Settles O55: the records are no part of what a step depends on. -/
theorem stepIgnoresRecords : Obligations.StepIgnoresRecords := by
  intro s s' t t' hp h ht ht'
  obtain ⟨u, hu, hc⟩ := step_of_same_architectural hp h.symm ht
  cases ht'.symm.trans hu
  exact (hc.architectural_eq h.symm).symm

/-! ### `run()` (R77 to R79) -/

theorem run_of_step_halted {s t : State} (h : step s = .next t) (ht : t.status = .halted) (n : Nat) :
    run (n + 1) s = some t := by
  simp only [run, h, if_pos ht]

theorem run_of_step_not_halted {s t : State} (h : step s = .next t) (ht : t.status ≠ .halted) (n : Nat) :
    run (n + 1) s = run n t := by
  simp only [run, h, if_neg ht]

/-- A run that ends begins with a step, which halts the core or is followed by the rest of the run. -/
theorem run_succ_cases {n : Nat} {s t : State} (h : run (n + 1) s = some t) :
    ∃ u, step s = .next u ∧ (u.status = .halted ∧ u = t ∨ u.status ≠ .halted ∧ run n u = some t) := by
  obtain ⟨u, hu⟩ := step_answers_next s
  refine ⟨u, hu, ?_⟩
  by_cases hh : u.status = .halted
  · rw [run_of_step_halted hu hh] at h
    exact .inl ⟨hh, Option.some.inj h⟩
  · rw [run_of_step_not_halted hu hh] at h
    exact .inr ⟨hh, h⟩

/-- Settles O52, by induction on the budget: the run stops at the same step under every larger budget. -/
theorem runEndsHalted : Obligations.RunEndsHalted := by
  intro n k s t h
  induction n generalizing s with
  | zero => cases h
  | succ n ih =>
    rw [Nat.succ_add]
    obtain ⟨u, hu, ⟨hh, rfl⟩ | ⟨hh, hrest⟩⟩ := run_succ_cases h
    · exact ⟨hh, run_of_step_halted hu hh _⟩
    · rw [run_of_step_not_halted hu hh]
      exact ih u hrest

/-- Settles O53, by induction on the budget: a blocked step leaves the same INPUT blocked. -/
theorem blockedRunNeverReturns : Obligations.BlockedRunNeverReturns := by
  intro s w o m0 hs hw hi ho hq hp n
  induction n generalizing s with
  | zero => rfl
  | succ n ih =>
    have hstep := step_of_blocked_input hs hw hi ho hq hp
    have hawait : (s.setStatus .awaitingInput).status ≠ .halted := nofun
    rw [run_of_step_not_halted hstep hawait]
    exact ih (s.setStatus .awaitingInput) hawait hw ho hq hp

/-! ### Reset, load, push, run, twice (70_reset_and_hazards.md section 3) -/

/-- Without a producer, runs from states with the same architectural part end alike and deliver the same values. -/
theorem run_of_same_architectural {n : Nat} {s s' t : State} (hp : s.config.hasProducer = false)
    (h : s'.architectural = s.architectural) (ht : run n s = some t) :
    ∃ t', run n s' = some t' ∧ t'.architectural = t.architectural ∧ t.config = s.config ∧
      ∃ d, t.delivered = s.delivered ++ d ∧ t'.delivered = s'.delivered ++ d := by
  induction n generalizing s s' with
  | zero => cases ht
  | succ n ih =>
    obtain ⟨u, hu, hend⟩ := run_succ_cases ht
    obtain ⟨u', hu', hc⟩ := step_of_same_architectural hp h hu
    have harch := hc.architectural_eq h
    obtain ⟨d, hd, hd'⟩ := hc.delivered
    rcases hend with ⟨hh, rfl⟩ | ⟨hh, hrest⟩
    · exact ⟨u', run_of_step_halted hu' (hc.status.trans hh) n, harch, hc.config, d, hd, hd'⟩
    · rw [run_of_step_not_halted hu' (hc.status.trans_ne hh)]
      obtain ⟨t', hrun, ha, hcfg, e, he, he'⟩ := ih (by rw [hc.config, hp]) harch hrest
      refine ⟨t', hrun, ha, hcfg.trans hc.config, d ++ e, ?_, ?_⟩
      · rw [he, hd, List.append_assoc]
      · rw [he', hd', List.append_assoc]

theorem foldl_pushInput (inputs : List Word) (s : State) :
    inputs.foldl (fun t v => pushInput v t) s = s.setInq (s.inq ++ inputs) := by
  induction inputs generalizing s with
  | nil => rw [List.append_nil]; rfl
  | cons v inputs ih =>
    rw [List.foldl_cons, ih, pushInput, setInq_inq, List.append_assoc]
    rfl

/-- `prepare` leaves a state that depends on the configuration, but for the model's own records, which it keeps. -/
theorem exists_prepare (program inputs : List Word) (c : Config) : ∃ m, ∀ s : State, s.config = c →
    prepare program inputs s = { s.resetCore with mem := m, inq := inputs } := by
  rcases Nat.lt_or_ge c.memCells program.length with hlong | hfits
  · refine ⟨[], fun s hs => ?_⟩
    rw [prepare, foldl_pushInput, loadProgram_of_tooLong (by rw [resetCore_config, hs]; exact hlong)]
    rfl
  · refine ⟨Memory.writeAll 0 program [], fun s hs => ?_⟩
    rw [prepare, foldl_pushInput, loadProgram_of_fits (by rw [resetCore_config, hs]; exact hfits)]
    rfl

theorem prepare_config (program inputs : List Word) (s : State) : (prepare program inputs s).config = s.config := by
  obtain ⟨m, hm⟩ := exists_prepare program inputs s.config
  rw [hm s rfl]
  rfl

theorem prepare_delivered (program inputs : List Word) (s : State) :
    (prepare program inputs s).delivered = s.delivered := by
  obtain ⟨m, hm⟩ := exists_prepare program inputs s.config
  rw [hm s rfl]
  rfl

theorem prepare_architectural {s t : State} (h : t.config = s.config) (program inputs : List Word) :
    (prepare program inputs t).architectural = (prepare program inputs s).architectural := by
  obtain ⟨m, hm⟩ := exists_prepare program inputs s.config
  rw [hm s rfl, hm t h]
  exact congrArg (fun c => { State.create c with mem := m, inq := inputs }) h

/-- Settles O56: a run keeps the configuration, so the second preparation gives the first one's architectural state. -/
theorem resetLoadRunIsIdempotent : Obligations.ResetLoadRunIsIdempotent := by
  intro program inputs n s t hp hrun
  have hp' : (prepare program inputs s).config.hasProducer = false := by rw [prepare_config, hp]
  obtain ⟨-, -, -, hcfg, -⟩ := run_of_same_architectural hp' rfl hrun
  rw [prepare_config] at hcfg
  obtain ⟨u, hu, harch, -, d, hd, hd'⟩ :=
    run_of_same_architectural hp' (prepare_architectural hcfg program inputs) hrun
  rw [prepare_delivered] at hd hd'
  exact ⟨u, hu, harch, d, hd, hd'⟩

end Machine
end Sys2Proof
end

section
/-! Several cores wired through channels (60_exceptions.md section 4, 10_state.md section 1): what an operation on one core
does to the system, and why two instances' steps commute. -/

namespace Sys2Proof
namespace Machine

/-! ### Channels -/

theorem channel_setChannel (S : System) (c e : Nat) (q : List Word) (hc : c < S.channels.length) :
    (S.setChannel c q).channel e = if e = c then q else S.channel e := by
  rw [System.channel, System.channel, System.setChannel, List.getD_eq_getElem?_getD, List.getD_eq_getElem?_getD,
    List.getElem?_set]
  by_cases h : c = e
  · subst h
    simp [hc]
  · simp [h, Ne.symm h]

theorem channel_setChannel_other {S : System} {c e : Nat} (h : e ≠ c) (q : List Word) :
    (S.setChannel c q).channel e = S.channel e := by
  rw [System.channel, System.channel, System.setChannel, List.getD_eq_getElem?_getD, List.getD_eq_getElem?_getD,
    List.getElem?_set_ne h.symm]

theorem lt_length_of_wired {S : System} {k : Nat} {n : CoreInstance} (hw : S.wired = true)
    (hk : S.instances[k]? = some n) : n.inChan < S.channels.length ∧ n.outChan < S.channels.length := by
  have hn := List.all_eq_true.1 hw n (List.mem_of_getElem? hk)
  simpa using hn

/-! ### One operation on one core -/

theorem putBack_instances (k : Nat) (n : CoreInstance) (b a : Session) (S : System) :
    (S.putBack k n b a).instances =
      S.instances.set k { n with session := { a with core := (a.core.setInq []).setOutq [] } } := by
  unfold System.putBack
  split <;> rfl

theorem channel_putBack_other {S : System} {k c : Nat} {n : CoreInstance} {b a : Session} (hin : c ≠ n.inChan)
    (hout : c ≠ n.outChan) : (S.putBack k n b a).channel c = S.channel c := by
  have h1 : (S.setChannel n.inChan a.core.inq).channel c = S.channel c := channel_setChannel_other hin _
  unfold System.putBack
  split
  · exact h1
  · exact (channel_setChannel_other hout _).trans h1

theorem apply_of_instance {S : System} {k : Nat} {n : CoreInstance} (hk : S.instances[k]? = some n) {op : HostOp}
    {r : HostReply} {x : Session} (h : hostApply op (S.view n) = some (r, x)) :
    S.apply k op = some (r, S.putBack k n (S.view n) x) := by
  rw [System.apply, hk]
  simp only [h]

theorem apply_eq_some {S T : System} {k : Nat} {n : CoreInstance} {op : HostOp} {r : HostReply}
    (hk : S.instances[k]? = some n) (h : S.apply k op = some (r, T)) :
    ∃ x, hostApply op (S.view n) = some (r, x) ∧ T = S.putBack k n (S.view n) x := by
  cases hop : hostApply op (S.view n) with
  | none =>
    rw [System.apply, hk] at h
    simp only [hop] at h
    cases h
  | some y =>
    cases h.symm.trans (apply_of_instance hk hop)
    exact ⟨y.2, rfl, rfl⟩

/-- Settles O57: an operation is put back into its own core and the two channels that one is wired to. -/
theorem operationsOnOneCoreArePrivate : Obligations.OperationsOnOneCoreArePrivate := by
  intro S T k op r n hk h
  obtain ⟨x, -, rfl⟩ := apply_eq_some hk h
  obtain ⟨hlt, -⟩ := List.getElem?_eq_some_iff.1 hk
  refine ⟨fun j hj => ?_, fun c hin hout => channel_putBack_other hin hout,
    { n with session := { x with core := (x.core.setInq []).setOutq [] } }, ?_, rfl, rfl⟩
  · rw [putBack_instances, List.getElem?_set_ne hj.symm]
  · rw [putBack_instances, List.getElem?_set_self hlt]

section PutBack

variable {S : System} {k : Nat} {n : CoreInstance} {b a : Session} (hin : n.inChan < S.channels.length)
  (hout : n.outChan < S.channels.length)

theorem putBack_channels_length : (S.putBack k n b a).channels.length = S.channels.length := by
  unfold System.putBack
  split <;> simp [System.setChannel]

include hin hout in
/-- What is put back: INQ always, OUTQ when it changed. -/
theorem channel_putBack (c : Nat) : (S.putBack k n b a).channel c =
    if c = n.outChan ∧ a.core.outq ≠ b.core.outq then a.core.outq
    else if c = n.inChan then a.core.inq else S.channel c := by
  have hfirst (e : Nat) := channel_setChannel S n.inChan e a.core.inq hin
  unfold System.putBack
  split
  next hq => exact (hfirst c).trans (by simp [hq])
  next hq =>
    have hlen : n.outChan < (S.setChannel n.inChan a.core.inq).channels.length := by
      rw [System.setChannel, List.length_set]
      exact hout
    exact (channel_setChannel _ n.outChan c a.core.outq hlen).trans (by simp [hq, hfirst])

end PutBack

/-- Settles O59: the input channel is emptied, and the output channel too unless it was empty. -/
theorem resetEmptiesBothChannels : Obligations.ResetEmptiesBothChannels := by
  intro S k n hw hk
  obtain ⟨hin, hout⟩ := lt_length_of_wired hw hk
  have hview : (S.view n).core.outq = S.channel n.outChan := rfl
  refine ⟨_, apply_of_instance hk (op := .reset) rfl, ?_, ?_⟩ <;>
    rw [channel_putBack hin hout, resetCore_inq, resetCore_outq, hview]
  · rw [if_pos rfl, ite_self]
  · by_cases hq : S.channel n.outChan = []
    · rw [if_neg (fun h => h.2 hq.symm), hq, ite_self]
    · rw [if_pos ⟨rfl, Ne.symm hq⟩]

/-! ### A step of one core, by what it takes and what it emits -/

/-- What a step of a core does to the contents of channel `c`: `d` values are taken at the head if it is the input
channel, and `l` comes to the tail if it is the output channel. -/
def CoreInstance.pass (n : CoreInstance) (d : Nat) (l : List Word) (c : Nat) (q : List Word) : List Word :=
  (if c = n.inChan then q.drop d else q) ++ (if c = n.outChan then l else [])

/-- The system after a step of core `k` that left `t`, took `d` values and emitted `l`. -/
def System.moved (k : Nat) (n : CoreInstance) (t : State) (d : Nat) (l : List Word) (S : System) : System where
  instances := S.instances.set k
    { n with session := { core := (t.setInq []).setOutq [], fresh := false } }
  channels := S.channels.mapIdx (n.pass d l)

theorem channel_moved {S : System} {k : Nat} {n : CoreInstance} {t : State} {d : Nat} {l : List Word}
    (hout : n.outChan < S.channels.length) (c : Nat) :
    (S.moved k n t d l).channel c = n.pass d l c (S.channel c) := by
  rw [System.channel, System.channel, System.moved, List.getD_eq_getElem?_getD, List.getD_eq_getElem?_getD,
    List.getElem?_mapIdx]
  by_cases hc : c < S.channels.length
  · simp [hc]
  · have hne : c ≠ n.outChan := by omega
    simp [List.getElem?_eq_none (Nat.not_lt.1 hc), CoreInstance.pass, hne]

/-- A system is its instances and the contents of its channels. -/
theorem system_eq {S T : System} (hinst : S.instances = T.instances)
    (hlen : S.channels.length = T.channels.length) (hch : ∀ c, S.channel c = T.channel c) : S = T := by
  have hchannels : S.channels = T.channels := by
    refine List.ext_getElem hlen fun c hS hT => ?_
    simpa [System.channel, List.getD_eq_getElem?_getD, hS, hT] using hch c
  cases S
  cases T
  rw [System.mk.injEq]
  exact ⟨hinst, hchannels⟩

theorem moved_channels_length {S : System} {k : Nat} {n : CoreInstance} {t : State} {d : Nat} {l : List Word} :
    (S.moved k n t d l).channels.length = S.channels.length :=
  List.length_mapIdx

section Step

variable {S : System} {k : Nat} {n : CoreInstance} {t : State} {d : Nat} {l : List Word} (hw : S.wired = true)
  (hk : S.instances[k]? = some n) (hdl : d = 0 ∨ l = [])
include hw hk hdl

/-- A step that takes a value emits none, so putting its two queues back moves the values. -/
theorem putBack_eq_moved (hin : t.inq = (S.channel n.inChan).drop d) (hout : t.outq = S.channel n.outChan ++ l) :
    S.putBack k n (S.view n) { core := t, fresh := false } = S.moved k n t d l := by
  obtain ⟨hi, ho⟩ := lt_length_of_wired hw hk
  have hview : (S.view n).core.outq = S.channel n.outChan := rfl
  refine system_eq (putBack_instances k n _ _ S) (putBack_channels_length.trans moved_channels_length.symm) fun c => ?_
  rw [channel_putBack hi ho, channel_moved ho, CoreInstance.pass, hview, hin, hout]
  have htaken : (if c = n.inChan then (S.channel n.inChan).drop d else S.channel c) =
      if c = n.inChan then (S.channel c).drop d else S.channel c := by
    split
    next hci => rw [hci]
    next => rfl
  rw [htaken]
  rcases hdl with rfl | rfl
  · rw [List.drop_zero, ite_self]
    by_cases hco : c = n.outChan
    · by_cases hl : l = [] <;> simp [hco, hl]
    · simp [hco]
  · simp

/-- A step of a core, its queues being its channels, is a step of the system. -/
theorem apply_step_of_view (h : step (S.view n).core = .next t) (hin : t.inq = (S.channel n.inChan).drop d)
    (hout : t.outq = S.channel n.outChan ++ l) :
    S.apply k .step = some (.stepped t.status.result, S.moved k n t d l) := by
  have hop : hostApply .step (S.view n) = some (.stepped t.status.result, { core := t, fresh := false }) := by
    rw [hostApply, h]
  rw [apply_of_instance hk hop, putBack_eq_moved hw hk hdl hin hout]

end Step

/-- Settles O58: the step takes nothing and emits its source. -/
theorem outputReachesTheChannel : Obligations.OutputReachesTheChannel := by
  intro S k n w a m0 hw hk hs hc hcell hi hr
  obtain ⟨-, hout⟩ := lt_length_of_wired hw hk
  have hexec := (outputEmitsValue.2 m0 ((S.view n).core.setPc ((S.view n).core.pc + 1))).1 a hr hc
  have hstep : step (S.view n).core = _ := step_of_decoded (s := (S.view n).core) hs hcell hi
  rw [hexec, traceExecuted] at hstep
  refine ⟨_, apply_step_of_view (d := 0) (l := [a]) hw hk (.inl rfl) hstep rfl rfl, ?_, fun c hne => ?_⟩
  · rw [channel_moved hout]
    simp [CoreInstance.pass]
  · rw [channel_moved hout]
    simp [CoreInstance.pass, hne]

/-! ### Two steps in either order (D28) -/

/-- 42_io.md: a step takes at most the head of INQ, and a step that takes it emits nothing into OUTQ. -/
theorem step_takes_or_emits {s t : State} (h : step s = .next t) :
    ∃ d l, (d = 0 ∨ l = []) ∧ d ≤ 1 ∧ t.inq = s.inq.drop d ∧ t.outq = s.outq ++ l := by
  obtain ⟨hin, hout⟩ := onlyIoTouchesQueues s t h
  rcases hout with hout | ⟨w, m, v, hw, hi, -, hout⟩
  · rcases hin with hin | ⟨-, -, v, -, -, hin⟩
    · exact ⟨0, [], .inl rfl, Nat.zero_le 1, hin, by rw [hout, List.append_nil]⟩
    · exact ⟨1, [], .inr rfl, le_rfl, by rw [hin]; rfl, by rw [hout, List.append_nil]⟩
  · rcases hin with hin | ⟨w', m', -, hw', hi', -⟩
    · exact ⟨0, [v], .inl rfl, Nat.zero_le 1, hin, hout⟩
    · cases hw.symm.trans hw'
      cases eq_of_decode hi hi'

/-- What a step that left `t` takes and emits, `d` values and `l`, whatever follows the head of INQ and stands in OUTQ. -/
def Moves (s t : State) (d : Nat) (l : List Word) : Prop :=
  ∀ qi qo, qi.head? = s.inq.head? →
    step { s with inq := qi, outq := qo } = .next { t with inq := qi.drop d, outq := qo ++ l }

theorem tail_ne_self {q : List Word} (h : q ≠ []) : q.tail ≠ q := by
  cases q with
  | nil => exact absurd rfl h
  | cons v q => exact (List.cons_ne_self v q).symm

/-- 20_memory.md section 2: with a value to read, a step depends on the head of INQ only. -/
theorem exists_moves {s : State} (hq : s.inq ≠ []) : ∃ t d l, (d = 0 ∨ l = []) ∧ d ≤ 1 ∧ Moves s t d l := by
  obtain ⟨t, ht⟩ := step_answers_next s
  obtain ⟨d, l, hdl, hd, hin, hout⟩ := step_takes_or_emits ht
  refine ⟨t, d, l, hdl, hd, fun qi qo hhead => ?_⟩
  have hagree : Agree s { s with inq := qi, outq := qo } :=
    ⟨rfl, rfl, rfl, rfl, rfl, rfl, hhead, fun hn => absurd hn hq⟩
  obtain ⟨t', ht', hc⟩ := step_local hagree rfl rfl ht
  have hinq : t'.inq = qi.drop d := by
    rcases hc.inq with ⟨he, he'⟩ | ⟨he, he'⟩ <;> rw [he'] <;> rw [hin] at he <;> interval_cases d
    · rfl
    · exact absurd (List.drop_one.symm.trans he) (tail_ne_self hq)
    · exact absurd he.symm (tail_ne_self hq)
    · exact List.drop_one.symm
  have houtq : t'.outq = qo ++ l := by
    obtain ⟨l', hl, hl'⟩ := hc.outq
    rw [hl', List.append_cancel_left (hout.symm.trans hl)]
  rw [ht', hc.eq_update, hinq, houtq, hc.fcause_eq rfl, hc.config_eq rfl, hc.calls_eq rfl, hc.delivered_eq rfl,
    hc.trace_eq rfl rfl]

theorem wired_moved {S : System} {k : Nat} {n : CoreInstance} {t : State} {d : Nat} {l : List Word}
    (hw : S.wired = true) (hk : S.instances[k]? = some n) : (S.moved k n t d l).wired = true := by
  refine List.all_eq_true.2 fun x hx => ?_
  rw [moved_channels_length]
  rcases List.mem_or_eq_of_mem_set hx with hx | rfl
  · exact List.all_eq_true.1 hw x hx
  · exact List.all_eq_true.1 hw n (List.mem_of_getElem? hk)

theorem stepOf_eq_moved {S : System} {k : Nat} {n : CoreInstance} {t : State} {d : Nat} {l : List Word}
    (hw : S.wired = true) (hk : S.instances[k]? = some n) (hdl : d = 0 ∨ l = [])
    (h : step (S.view n).core = .next { t with inq := (S.channel n.inChan).drop d, outq := S.channel n.outChan ++ l }) :
    S.stepOf k = some (S.moved k n t d l) := by
  rw [System.stepOf, apply_step_of_view hw hk hdl h rfl rfl]
  rfl

/-- Two values that two cores pass along one channel: a value taken is there before the other core emits. -/
theorem pass_comm {a b : CoreInstance} {da db c : Nat} {la lb q : List Word} (hin : a.inChan ≠ b.inChan)
    (hout : a.outChan ≠ b.outChan) (ha : c = a.inChan → da ≤ q.length) (hb : c = b.inChan → db ≤ q.length) :
    b.pass db lb c (a.pass da la c q) = a.pass da la c (b.pass db lb c q) := by
  have hemit : (if c = a.outChan then la else []) ++ (if c = b.outChan then lb else []) =
      (if c = b.outChan then lb else []) ++ (if c = a.outChan then la else []) := by
    by_cases hca : c = a.outChan
    · rw [if_neg (fun hcb => hout (hca.symm.trans hcb)), List.append_nil, List.nil_append]
    · rw [if_neg hca, List.append_nil, List.nil_append]
  unfold CoreInstance.pass
  by_cases hca : c = a.inChan
  · have hcb : c ≠ b.inChan := hca ▸ hin
    rw [if_pos hca, if_pos hca, if_neg hcb, if_neg hcb, List.drop_append_of_le_length (ha hca), List.append_assoc,
      List.append_assoc, hemit]
  · rw [if_neg hca, if_neg hca]
    by_cases hcb : c = b.inChan
    · rw [if_pos hcb, if_pos hcb, List.drop_append_of_le_length (hb hcb), List.append_assoc, List.append_assoc, hemit]
    · rw [if_neg hcb, if_neg hcb, List.append_assoc, List.append_assoc, hemit]

/-- Two steps, the first of which leaves the second one's input head in place. -/
theorem stepOf_stepOf {S : System} {j k : Nat} {a b : CoreInstance} {ta tb : State} {da db : Nat} {la lb : List Word}
    (hw : S.wired = true) (hjk : j ≠ k) (hj : S.instances[j]? = some a) (hk : S.instances[k]? = some b)
    (hin : a.inChan ≠ b.inChan) (hqb : S.channel b.inChan ≠ []) (hdla : da = 0 ∨ la = []) (hdlb : db = 0 ∨ lb = [])
    (ha : Moves (S.view a).core ta da la) (hb : Moves (S.view b).core tb db lb) :
    (S.stepOf j).bind (System.stepOf k) = some ((S.moved j a ta da la).moved k b tb db lb) := by
  obtain ⟨-, houta⟩ := lt_length_of_wired hw hj
  have hk' : (S.moved j a ta da la).instances[k]? = some b := (List.getElem?_set_ne hjk).trans hk
  have hhead : ((S.moved j a ta da la).channel b.inChan).head? = (S.channel b.inChan).head? := by
    rw [channel_moved houta, CoreInstance.pass, if_neg hin.symm, head?_append_of_ne_nil hqb]
  rw [stepOf_eq_moved hw hj hdla (ha _ _ rfl), Option.bind_some]
  exact stepOf_eq_moved (wired_moved hw hj) hk' hdlb (hb _ _ hhead)

theorem length_of_ne_nil {q : List Word} {d : Nat} (hq : q ≠ []) (hd : d ≤ 1) : d ≤ q.length :=
  hd.trans (List.length_pos_iff.2 hq)

theorem moved_comm {S : System} {j k : Nat} {a b : CoreInstance} {ta tb : State} {da db : Nat} {la lb : List Word}
    (hw : S.wired = true) (hjk : j ≠ k) (hj : S.instances[j]? = some a) (hk : S.instances[k]? = some b)
    (hpass : ∀ c, b.pass db lb c (a.pass da la c (S.channel c)) = a.pass da la c (b.pass db lb c (S.channel c))) :
    (S.moved j a ta da la).moved k b tb db lb = (S.moved k b tb db lb).moved j a ta da la := by
  obtain ⟨-, houta⟩ := lt_length_of_wired hw hj
  obtain ⟨-, houtb⟩ := lt_length_of_wired hw hk
  refine system_eq (List.set_comm _ _ hjk) (by simp only [moved_channels_length]) fun c => ?_
  rw [channel_moved (by rwa [moved_channels_length]), channel_moved houta,
    channel_moved (by rwa [moved_channels_length]), channel_moved houtb]
  exact hpass c

/-- Settles O60: each step takes the head that was there and emits at another channel's tail, so the values passed are the
same in either order. -/
theorem stepsOfTwoCoresCommute : Obligations.StepsOfTwoCoresCommute := by
  intro S j k a b hw hjk hj hk hin hout hqa hqb
  obtain ⟨ta, da, la, hdla, hda, ha⟩ := exists_moves (s := (S.view a).core) hqa
  obtain ⟨tb, db, lb, hdlb, hdb, hb⟩ := exists_moves (s := (S.view b).core) hqb
  have hpass (c : Nat) := pass_comm (la := la) (lb := lb) (c := c) (q := S.channel c) hin hout
    (fun hc => hc ▸ length_of_ne_nil hqa hda) (fun hc => hc ▸ length_of_ne_nil hqb hdb)
  refine ⟨_, stepOf_stepOf hw hjk hj hk hin hqb hdla hdlb ha hb, ?_⟩
  rw [moved_comm hw hjk hj hk hpass]
  exact stepOf_stepOf hw hjk.symm hk hj hin.symm hqa hdlb hdla hb ha

end Machine
end Sys2Proof
end
